-- ==== Sys2Proof/Word.lean ====
section
/-! DEFINITION. The widths of the block's values (00_scope.md R6, R7, R12): every value is an
unsigned bit vector of a stated width. -/

namespace Sys2Proof

/-- One element of a byte sequence, and one lane of a data bus (00_scope.md R6 `BYTE_W`, R14). -/
abbrev Byte := BitVec 8

/-- A 16-bit number, and the running value of the CRC (00_scope.md R6 `CRC_W`). -/
abbrev Half := BitVec 16

/-- The command data bus and the response data bus, four byte lanes (00_scope.md R7 `DATA_W`). -/
abbrev Data := BitVec 32

/-- The operation code of a command (00_scope.md R7 `OP_W`). -/
abbrev OpCode := BitVec 4

/-- A command word, `cmd_op :: cmd_data` (00_scope.md R7 `CW_W`, 30_encoding.md R37). -/
abbrev CommandWord := BitVec 36

end Sys2Proof
end

