-- ==== Sys2Proof/Config.lean ====
section
/-! DEFINITION. The constants wired into the block (00_scope.md R6) and its one open
parameter (00_scope.md R8). None is a register and none can change at run time. -/

namespace Sys2Proof

/-- `POLY`: XORed into the running value after a shift that dropped a 1 (00_scope.md R6). -/
def Config.poly : Half := 0xA001#16

/-- `SEED`: the running value before the first byte (00_scope.md R6). -/
def Config.seed : Half := 0xFFFF#16

/-- `ITER`: shift iterations per absorbed byte (00_scope.md R6). -/
def Config.iter : Nat := 8

/-- `T_OP`: the finite time from the acceptance of a command to its completion (00_scope.md R8,
93_implementation_defined.md U3). OPEN in the spec: no rule reads it and neither does the model
(log entry 6). -/
opaque Config.tOp : CommandWord → Nat

end Sys2Proof
end

