-- ==== Sys2Proof/Syntax.lean ====
section
/-! DEFINITION. The eight commands, one constructor per row of the opcode map
(30_encoding.md R40). An operand is typed as what it is: a number for an encode operation, a
byte sequence, first byte first, for a decode operation (30_encoding.md R39; 40_codec.md
R55(b), "a model should type them so"). -/

namespace Sys2Proof

/-- A command that spells an operation (30_encoding.md R44). -/
inductive Instr where
  /-- `ENC16BE n`: 16-bit number to big-endian byte pair (40_codec.md R50). -/
  | enc16be (n : Half)
  /-- `DEC16BE [b0, b1]`: big-endian byte pair to 16-bit number (40_codec.md R51). -/
  | dec16be (b0 b1 : Byte)
  /-- `ENC32BE n`: 32-bit number to big-endian byte quadruple (40_codec.md R52). -/
  | enc32be (n : Data)
  /-- `DEC32BE [b0, b1, b2, b3]`: big-endian byte quadruple to 32-bit number (40_codec.md R53). -/
  | dec32be (b0 b1 b2 b3 : Byte)
  /-- `ENC16LE n`: 16-bit number to low-byte-first byte pair (40_codec.md R54). -/
  | enc16le (n : Half)
  /-- `CRC.INIT`: start a checksum (41_crc.md R59). -/
  | crcInit
  /-- `CRC.UPD b`: absorb one byte (41_crc.md R60). -/
  | crcUpd (b : Byte)
  /-- `CRC.RD`: read the checksum (41_crc.md R61). -/
  | crcRd
  deriving DecidableEq, Repr

end Sys2Proof
end

