-- ==== Sys2Proof/WellFormed.lean ====
section
/-! DEFINITION. Formats and payloads of the commands (30_encoding.md R38), the listing syntax in
which a host writes commands (30_encoding.md R45), and the checks a written line must pass.

A term of `Instr` is well-formed by its types, "in-range by construction" (30_encoding.md R42,
40_codec.md R49); a written line holds plain numbers and can be ill-formed. -/

namespace Sys2Proof

/-- The eight mnemonics (30_encoding.md R40). -/
inductive Mnemonic where
  | enc16be | dec16be | enc32be | dec32be | enc16le | crcInit | crcUpd | crcRd
  deriving DecidableEq, Repr

/-- The four operand formats (30_encoding.md R38). -/
inductive Format where
  /-- no operand -/
  | z
  /-- one byte -/
  | b
  /-- 16-bit payload -/
  | h
  /-- 32-bit payload -/
  | w
  deriving DecidableEq, Repr

/-- How many low data bits a format uses; the bits above are reserved and zero
(30_encoding.md R38). -/
def Format.payloadBits : Format → Nat
  | .z => 0
  | .b => 8
  | .h => 16
  | .w => 32

/-- The format of each command (30_encoding.md R40). -/
def Mnemonic.format : Mnemonic → Format
  | .enc16be => .h
  | .dec16be => .h
  | .enc32be => .w
  | .dec32be => .w
  | .enc16le => .h
  | .crcInit => .z
  | .crcUpd => .b
  | .crcRd => .z

def Instr.mnemonic : Instr → Mnemonic
  | .enc16be _ => .enc16be
  | .dec16be _ _ => .dec16be
  | .enc32be _ => .enc32be
  | .dec32be _ _ _ _ => .dec32be
  | .enc16le _ => .enc16le
  | .crcInit => .crcInit
  | .crcUpd _ => .crcUpd
  | .crcRd => .crcRd

/-- The value of the operand as it stands in `cmd.data`, a byte sequence with its first byte in
lane 0 (30_encoding.md R39). -/
def Instr.payload : Instr → Nat
  | .enc16be n => n.toNat
  | .dec16be b0 b1 => b0.toNat + 256 * b1.toNat
  | .enc32be n => n.toNat
  | .dec32be b0 b1 b2 b3 =>
      b0.toNat + 256 * (b1.toNat + 256 * (b2.toNat + 256 * b3.toNat))
  | .enc16le n => n.toNat
  | .crcInit => 0
  | .crcUpd b => b.toNat
  | .crcRd => 0

/-- The operand fits its format: the reserved data bits are zero (30_encoding.md R42). -/
def Instr.wf (i : Instr) : Bool :=
  decide (i.payload < 2 ^ i.mnemonic.format.payloadBits)

/-- The operand of a written line (30_encoding.md R45). -/
inductive Operand where
  | none
  /-- a number, or the byte of `CRC.UPD` -/
  | number (n : Nat)
  /-- a bracketed byte sequence, first byte leftmost -/
  | bytes (s : List Nat)
  /-- `$<line>`: the response of the command on that earlier line, used unchanged as `cmd.data` -/
  | response (line : Nat)
  deriving DecidableEq, Repr

/-- One line of a listing (30_encoding.md R45). -/
inductive Line where
  | command (m : Mnemonic) (o : Operand)
  /-- `.cw`: a raw command word -/
  | word (n : Nat)
  deriving DecidableEq, Repr

/-- The operand kinds and ranges of each mnemonic, for a command written on line `here`
(lines count from 1); a `$` operand names an earlier line (30_encoding.md R45). -/
def Operand.wf (here : Nat) : Mnemonic → Operand → Bool
  | .crcInit, .none => true
  | .crcRd, .none => true
  | .crcUpd, .number n => decide (n < 256)
  | .enc16be, .number n => decide (n < 65536)
  | .enc16le, .number n => decide (n < 65536)
  | .enc32be, .number n => decide (n < 4294967296)
  | .dec16be, .bytes s => decide (s.length = 2) && s.all (fun b => decide (b < 256))
  | .dec32be, .bytes s => decide (s.length = 4) && s.all (fun b => decide (b < 256))
  | m, .response line => decide (m.format ≠ .z) && decide (1 ≤ line) && decide (line < here)
  | _, _ => false

/-- A line that may stand on line `here`; a raw word has nine hex digits (30_encoding.md R45). -/
def Line.wf (here : Nat) : Line → Bool
  | .command m o => o.wf here m
  | .word n => decide (n < 2 ^ 36)

end Sys2Proof
end

