-- ==== Sys2Proof/Decode.lean ====
section
/-! DEFINITION. Fields of a command word (30_encoding.md R37), byte lanes (20_memory.md R25),
the decoder (30_encoding.md R44), the encoder, and the match and mask columns of the opcode map
(30_encoding.md R40). -/

namespace Sys2Proof

/-- `cmd.op`, bits 35 to 32 of a command word (30_encoding.md R37). -/
def opField (w : CommandWord) : OpCode := w.extractLsb' 32 4

/-- `cmd.data`, bits 31 to 0 of a command word (30_encoding.md R37). -/
def dataField (w : CommandWord) : Data := w.extractLsb' 0 32

/-- `CW = cmd_op :: cmd_data` (30_encoding.md R37). -/
def commandWord (op : OpCode) (data : Data) : CommandWord := op ++ data

/-- Lane `k` of a data bus, bits `8k+7` to `8k` (20_memory.md R25). -/
def lane (d : Data) (k : Nat) : Byte := d.extractLsb' (8 * k) 8

/-- A byte sequence on a data bus: element `k` in lane `k`, the lanes beyond the sequence zero
(20_memory.md R25). -/
def lanesOf (s : List Byte) : Data :=
  s.getD 3 0 ++ s.getD 2 0 ++ s.getD 1 0 ++ s.getD 0 0

/-- Why a word spells no operation. The spec has one answer, `illegal` (30_encoding.md R44); the
decoder says by which of its two rules, and the machine does not tell the two apart
(60_exceptions.md R66; log entry 8). -/
inductive IllegalWord where
  /-- the operation code is not assigned (30_encoding.md R41) -/
  | reservedOpCode
  /-- the operation code is assigned and a reserved data bit is set (30_encoding.md R42) -/
  | reservedDataBits
  deriving DecidableEq, Repr

/-- The operation `i` if the reserved data bits are zero, illegal otherwise (30_encoding.md R42). -/
def ifReservedZero (areZero : Bool) (i : Instr) : Except IllegalWord Instr :=
  if areZero then .ok i else .error .reservedDataBits

/-- The case split of the decoder over the two fields of a word (30_encoding.md R44). -/
def decodeFields (op : OpCode) (d : Data) : Except IllegalWord Instr :=
  match op with
  | 0x1#4 => ifReservedZero (d.extractLsb' 16 16 == 0) (.enc16be (d.extractLsb' 0 16))
  | 0x2#4 => ifReservedZero (d.extractLsb' 16 16 == 0) (.dec16be (lane d 0) (lane d 1))
  | 0x3#4 => .ok (.enc32be d)
  | 0x4#4 => .ok (.dec32be (lane d 0) (lane d 1) (lane d 2) (lane d 3))
  | 0x5#4 => ifReservedZero (d.extractLsb' 16 16 == 0) (.enc16le (d.extractLsb' 0 16))
  | 0x8#4 => ifReservedZero (d == 0) .crcInit
  | 0x9#4 => ifReservedZero (d.extractLsb' 8 24 == 0) (.crcUpd (d.extractLsb' 0 8))
  | 0xA#4 => ifReservedZero (d == 0) .crcRd
  | _ => .error .reservedOpCode

/-- The decoder (30_encoding.md R44): total on all 36-bit words, reads no state. -/
def decode (w : CommandWord) : Except IllegalWord Instr := decodeFields (opField w) (dataField w)

/-- The word spells an operation. -/
def legal (w : CommandWord) : Bool := (decode w).isOk

/-- The operation code of each command (30_encoding.md R40). -/
def Mnemonic.opCode : Mnemonic → OpCode
  | .enc16be => 0x1#4
  | .dec16be => 0x2#4
  | .enc32be => 0x3#4
  | .dec32be => 0x4#4
  | .enc16le => 0x5#4
  | .crcInit => 0x8#4
  | .crcUpd => 0x9#4
  | .crcRd => 0xA#4

/-- The operand of a command as it stands in `cmd.data` (30_encoding.md R38, R39). -/
def Instr.dataWord : Instr → Data
  | .enc16be n => n.zeroExtend 32
  | .dec16be b0 b1 => lanesOf [b0, b1]
  | .enc32be n => n
  | .dec32be b0 b1 b2 b3 => lanesOf [b0, b1, b2, b3]
  | .enc16le n => n.zeroExtend 32
  | .crcInit => 0
  | .crcUpd b => b.zeroExtend 32
  | .crcRd => 0

/-- The encoder: the one command word of each command (30_encoding.md R38, R39, R40, R44). -/
def encode (i : Instr) : CommandWord := commandWord i.mnemonic.opCode i.dataWord

/-- The `match` column of the opcode map (30_encoding.md R40). -/
def Mnemonic.matchBits : Mnemonic → CommandWord
  | .enc16be => 0x100000000#36
  | .dec16be => 0x200000000#36
  | .enc32be => 0x300000000#36
  | .dec32be => 0x400000000#36
  | .enc16le => 0x500000000#36
  | .crcInit => 0x800000000#36
  | .crcUpd => 0x900000000#36
  | .crcRd => 0xA00000000#36

/-- The `mask` column of the opcode map (30_encoding.md R40). -/
def Mnemonic.maskBits : Mnemonic → CommandWord
  | .enc16be => 0xFFFFF0000#36
  | .dec16be => 0xFFFFF0000#36
  | .enc32be => 0xF00000000#36
  | .dec32be => 0xF00000000#36
  | .enc16le => 0xFFFFF0000#36
  | .crcInit => 0xFFFFFFFFF#36
  | .crcUpd => 0xFFFFFFF00#36
  | .crcRd => 0xFFFFFFFFF#36

/-- The command word whose bits are the low `nbits` bits of `w`; none if that number has a bit
above bit 35, for then it is no command word (30_encoding.md R38; log entry 9). -/
def tableWord (nbits w : Nat) : Option CommandWord :=
  let v := w % 2 ^ nbits
  if v < 2 ^ 36 then some (BitVec.ofNat 36 v) else none

/-- The command that the decoder reads from a word numbered as the opcode table numbers it. -/
def decodeTableWord (nbits w : Nat) : Option Instr :=
  (tableWord nbits w).bind fun cw => (decode cw).toOption

end Sys2Proof
end

