-- ==== Sys2Proof/Machine/State.lean ====
section
/-! DEFINITION. The state of the block (10_state.md R16, R17; 00_scope.md R10), the two sides of
its port as plain data (00_scope.md R9, R11; log entry 2), its one fault and the model's
refusals. -/

namespace Sys2Proof.Machine

/-- The faults of the block; the list is complete (60_exceptions.md R67). -/
inductive Fault where
  /-- Raised by every accepted command word that spells no operation (60_exceptions.md R66).
  It does not stop the block: it is recorded in the command's completion and in `ERR`, and the
  step answers a next state, never `Outcome.fault` (log entry 1). Safe: nothing is cut off. -/
  | illegalCommand
  deriving DecidableEq, Repr

/-- Why the model gives no meaning. No command and no command word is refused. -/
inductive Refusal where
  /-- Raised by an arm of `exec` for a command without a meaning: there is none. Safe. -/
  | notModelled (mnemonic : String)
  /-- Raised by `runLine` for a written line that fails `Line.wf`: no command word is what it
  says (30_encoding.md R45). Safe. -/
  | illFormedLine
  /-- Raised by `runLine` for an operand `$k` whose line has no response: the host has made an
  error the model should refuse (93_implementation_defined.md U2; 70_reset_and_hazards.md R87).
  Safe. -/
  | forwardsNoResponse
  deriving DecidableEq, Repr

/-- A move of the host (00_scope.md R9). -/
inductive HostMove where
  /-- The host presents a command word and the block accepts it (30_encoding.md R37). -/
  | command (w : CommandWord)
  /-- A reset event. `lost` is the command word, if any, that the port shows on that edge and
  that is not accepted (70_reset_and_hazards.md R79), or that was in flight and is abandoned
  (R80); it has no effect (log entry 3). -/
  | reset (lost : Option CommandWord)
  deriving DecidableEq, Repr

/-- The response of a command: none, or a 32-bit value (00_scope.md R10;
93_implementation_defined.md U2; log entry 5). -/
abbrev Response := Option Data

/-- The `Outcome` of a command (00_scope.md R10). -/
inductive CommandOutcome where
  | ok
  | fault (f : Fault)
  deriving DecidableEq, Repr

/-- What an accepted command gives back when it completes (00_scope.md R10; 30_encoding.md R37). -/
structure Completion where
  response : Response
  outcome : CommandOutcome
  deriving DecidableEq, Repr

/-- `crc` and `err` are the whole architectural state (00_scope.md R10). The other three fields
are the model's own: the host's moves to come, the host's moves made, and the completions given
back, each oldest first (log entry 2). -/
structure State where
  /-- the register `CRC` (10_state.md R16) -/
  crc : Half
  /-- the sticky flag `ERR` (10_state.md R17) -/
  err : Bool
  pending : List HostMove
  history : List HostMove
  completions : List Completion
  deriving DecidableEq, Repr

/-- The state after reset (10_state.md R24), with no host move made and none to come
(log entry 2). -/
def State.reset : State where
  crc := Config.seed
  err := false
  pending := []
  history := []
  completions := []

end Sys2Proof.Machine
end

