-- ==== Sys2Proof/Machine/Flags.lean ====
section
/-! DEFINITION. The one flag, `ERR` (10_state.md R17, R21). No command computes any other. -/

namespace Sys2Proof.Machine

/-- `ERR <- 1`: the flag after an illegal word, sticky (60_exceptions.md R66, R72). -/
def errAfterFault : Bool := true

/-- The flag after reset, the only event that clears it (70_reset_and_hazards.md R79). -/
def errAfterReset : Bool := false

/-- The output port `err`, the level of the flag (30_encoding.md R37). -/
def errPin (s : State) : BitVec 1 := if s.err then 1 else 0

end Sys2Proof.Machine
end

