-- ==== Sys2Proof/Machine/Operands.lean ====
section
/-! DEFINITION. How a result is placed on the response bus (30_encoding.md R39, third column;
20_memory.md R25). How an operand is taken from the command word (its second column) is the
decoder's. -/

namespace Sys2Proof.Machine

/-- A 16-bit number as a response, zero-extended (30_encoding.md R39). -/
def numberResponse (n : Half) : Data := n.zeroExtend 32

/-- A byte sequence as a response, element `k` in lane `k`, unused lanes zero
(30_encoding.md R39). -/
def sequenceResponse (s : List Byte) : Data := lanesOf s

end Sys2Proof.Machine
end

