-- ==== Sys2Proof/Machine/Ops.lean ====
section
/-! DEFINITION. The operations every meaning is written with: reading and writing `CRC`,
completing a command, the fault, and reset. -/

namespace Sys2Proof.Machine

/-- Read of the register `CRC`: no side effect (10_state.md R16). -/
def State.readCrc (s : State) : Half := s.crc

/-- `CRC <- v` (10_state.md R16). -/
def State.writeCrc (v : Half) (s : State) : State := { s with crc := v }

/-- The command in progress completes: exactly one completion, after all earlier ones
(30_encoding.md R37; 20_memory.md R33). -/
def State.complete (r : Response) (o : CommandOutcome) (s : State) : State :=
  { s with completions := s.completions ++ [{ response := r, outcome := o }] }

/-- `rsp <- d`, outcome ok (00_scope.md R13). -/
def State.respond (d : Data) (s : State) : State := s.complete (some d) .ok

/-- Completion without a response, outcome ok (00_scope.md R13). -/
def State.finish (s : State) : State := s.complete none .ok

/-- `raise IllegalCommand`: set `ERR`, change nothing else, response none
(60_exceptions.md R66, R71). There is no return from it (R72). -/
def State.raiseIllegalCommand (s : State) : State :=
  { s with err := errAfterFault }.complete none (.fault .illegalCommand)

/-- The reset event: `CRC <- 0xFFFF`, `ERR <- 0`, no completion (70_reset_and_hazards.md R79,
R80). -/
def State.applyReset (s : State) : State :=
  { s with crc := Config.seed, err := errAfterReset }

/-- The host's move `m` passes from the moves to come to the moves made; `rest` is still to
come (log entry 2). -/
def State.take (m : HostMove) (rest : List HostMove) (s : State) : State :=
  { s with pending := rest, history := s.history ++ [m] }

end Sys2Proof.Machine
end

