-- ==== Sys2Proof/Machine/Codec.lean ====
section
/-! DEFINITION. The byte-order codec family (40_codec.md): the five functions, from number to
byte sequence or back, and the meanings of the five commands, which read and write no state
(R49). -/

namespace Sys2Proof.Machine

/-- `encode_u16_be(n) -> [hi, lo]` (40_codec.md R50; 20_memory.md R26). -/
def encodeU16Be (n : Half) : List Byte := [n.extractLsb' 8 8, n.extractLsb' 0 8]

/-- `decode_u16_be([b0, b1]) -> b0 :: b1` (40_codec.md R51; 20_memory.md R26). -/
def decodeU16Be (b0 b1 : Byte) : Half := b0 ++ b1

/-- `encode_u32_be(n) -> [b3, b2, b1, b0]`, most significant first (40_codec.md R52;
20_memory.md R27). -/
def encodeU32Be (n : Data) : List Byte :=
  [n.extractLsb' 24 8, n.extractLsb' 16 8, n.extractLsb' 8 8, n.extractLsb' 0 8]

/-- `decode_u32_be([b0, b1, b2, b3]) -> b0 :: b1 :: b2 :: b3` (40_codec.md R53;
20_memory.md R27). -/
def decodeU32Be (b0 b1 b2 b3 : Byte) : Data := b0 ++ b1 ++ b2 ++ b3

/-- `encode_u16_le(n) -> [lo, hi]` (40_codec.md R54; 20_memory.md R28). -/
def encodeU16Le (n : Half) : List Byte := [n.extractLsb' 0 8, n.extractLsb' 8 8]

/-- `ENC16BE n` (40_codec.md R50). -/
def execEnc16be (n : Half) (s : State) : Host.Outcome State Fault Refusal :=
  .next (s.respond (sequenceResponse (encodeU16Be n)))

/-- `DEC16BE [b0, b1]` (40_codec.md R51). -/
def execDec16be (b0 b1 : Byte) (s : State) : Host.Outcome State Fault Refusal :=
  .next (s.respond (numberResponse (decodeU16Be b0 b1)))

/-- `ENC32BE n` (40_codec.md R52). -/
def execEnc32be (n : Data) (s : State) : Host.Outcome State Fault Refusal :=
  .next (s.respond (sequenceResponse (encodeU32Be n)))

/-- `DEC32BE [b0, b1, b2, b3]` (40_codec.md R53). -/
def execDec32be (b0 b1 b2 b3 : Byte) (s : State) : Host.Outcome State Fault Refusal :=
  .next (s.respond (decodeU32Be b0 b1 b2 b3))

/-- `ENC16LE n` (40_codec.md R54). -/
def execEnc16le (n : Half) (s : State) : Host.Outcome State Fault Refusal :=
  .next (s.respond (sequenceResponse (encodeU16Le n)))

end Sys2Proof.Machine
end

