-- ==== Sys2Proof/Machine/Crc.lean ====
section
/-! DEFINITION. The CRC-16/Modbus generator family (41_crc.md): the algorithm and the meanings
of the three commands. -/

namespace Sys2Proof.Machine

/-- One iteration: if the low bit is set, shift right and XOR with 0xA001, else shift right
(41_crc.md R58). -/
def crcStep (v : Half) : Half :=
  if v.getLsbD 0 then (v >>> 1) ^^^ Config.poly else v >>> 1

/-- `n` iterations of `crcStep`. -/
def crcIterate : Nat → Half → Half
  | 0, v => v
  | n + 1, v => crcIterate n (crcStep v)

/-- One byte: XOR into the low byte, then eight iterations (41_crc.md R58). -/
def crcByte (v : Half) (b : Byte) : Half :=
  crcIterate Config.iter (v ^^^ b.zeroExtend 16)

/-- The running value after the bytes of `s`, first byte first, from `v` (41_crc.md R58, R63). -/
def crcBytes (v : Half) (s : List Byte) : Half := s.foldl crcByte v

/-- `compute(bytes) -> u16` (41_crc.md R58). -/
def compute (s : List Byte) : Half := crcBytes Config.seed s

/-- `CRC.INIT` (41_crc.md R59). -/
def execCrcInit (s : State) : Host.Outcome State Fault Refusal :=
  .next (s.writeCrc Config.seed).finish

/-- `CRC.UPD b`: atomic, the eight iterations are one step (41_crc.md R60; 20_memory.md R31). -/
def execCrcUpd (b : Byte) (s : State) : Host.Outcome State Fault Refusal :=
  .next (s.writeCrc (crcByte s.readCrc b)).finish

/-- `CRC.RD` (41_crc.md R61). -/
def execCrcRd (s : State) : Host.Outcome State Fault Refusal :=
  .next (s.respond (numberResponse s.readCrc))

end Sys2Proof.Machine
end

