-- ==== Sys2Proof/Machine/Dispatch.lean ====
section
/-! DEFINITION. One arm per command: its meaning, called directly. -/

namespace Sys2Proof.Machine

/-- The effect of a legal command (00_scope.md R10; 60_exceptions.md R68). -/
def exec (i : Instr) (s : State) : Host.Outcome State Fault Refusal :=
  match i with
  | .enc16be n => Sys2Proof.Machine.execEnc16be n s
  | .dec16be b0 b1 => Sys2Proof.Machine.execDec16be b0 b1 s
  | .enc32be n => Sys2Proof.Machine.execEnc32be n s
  | .dec32be b0 b1 b2 b3 => Sys2Proof.Machine.execDec32be b0 b1 b2 b3 s
  | .enc16le n => Sys2Proof.Machine.execEnc16le n s
  | .crcInit => Sys2Proof.Machine.execCrcInit s
  | .crcUpd b => Sys2Proof.Machine.execCrcUpd b s
  | .crcRd => Sys2Proof.Machine.execCrcRd s

end Sys2Proof.Machine
end

