-- ==== Sys2Proof/Machine/Port.lean ====
section
/-! DEFINITION. What the block does with one host move (00_scope.md R9, R10). -/

namespace Sys2Proof.Machine

/-- An accepted command word: the operation it spells, or `IllegalCommand`
(00_scope.md R10; 60_exceptions.md R66). -/
def acceptWord (w : CommandWord) (s : State) : Host.Outcome State Fault Refusal :=
  match decode w with
  | .ok i => exec i s
  | .error _ => .next s.raiseIllegalCommand

/-- One host move. The word that a reset loses has no effect (70_reset_and_hazards.md R79,
R80). -/
def makeMove (m : HostMove) (s : State) : Host.Outcome State Fault Refusal :=
  match m with
  | .command w => acceptWord w s
  | .reset _ => .next s.applyReset

/-- Between commands the block is idle and holds `CRC` and `ERR` (60_exceptions.md R78). -/
def idle (s : State) : Host.Outcome State Fault Refusal := .next s

end Sys2Proof.Machine
end

