-- ==== Sys2Proof/Machine/Step.lean ====
section
/-! DEFINITION. One step of the machine: the next host move, or idling when there is none. -/

namespace Sys2Proof.Machine

/-- The block takes one step per host move, in order (00_scope.md R9; 20_memory.md R33). -/
def step (s : State) : Host.Outcome State Fault Refusal :=
  match s.pending with
  | [] => idle s
  | m :: rest => makeMove m (s.take m rest)

/-- The host presents the command word of the low `nbits` bits of `w` as its next move, before
the moves still to come (log entry 2). A number that is no 36-bit word cannot be presented
(log entry 9). -/
def State.withFetchWord (s : State) (nbits w : Nat) : State :=
  match tableWord nbits w with
  | some cw => { s with pending := .command cw :: s.pending }
  | none => s

end Sys2Proof.Machine
end

