-- ==== Sys2Proof/Machine/Listing.lean ====
section
/-! DEFINITION. The host's side: running a written listing, with `$` forwarding
(30_encoding.md R45), the pseudo-instructions (R46), and the host's two verifications
(41_crc.md R62). The block knows nothing of any of these (log entry 7). -/

namespace Sys2Proof.Machine

/-- The word of line `here`; `rsp k` is the response of line `k` (30_encoding.md R45). A
forwarded value is used unchanged as `cmd.data`, and the block judges the word. -/
def assembleLine (rsp : Nat → Response) (here : Nat) (l : Line) :
    Except Refusal CommandWord :=
  if l.wf here then
    match l with
    | .command m .none => .ok (commandWord m.opCode 0)
    | .command m (.number n) => .ok (commandWord m.opCode (BitVec.ofNat 32 n))
    | .command m (.bytes s) => .ok (commandWord m.opCode (lanesOf (s.map (BitVec.ofNat 8))))
    | .command m (.response k) =>
        match rsp k with
        | some d => .ok (commandWord m.opCode d)
        | none => .error .forwardsNoResponse
    | .word n => .ok (BitVec.ofNat 36 n)
  else .error .illFormedLine

/-- The response of line `k` of a listing whose first completion is number `base`; lines count
from 1. -/
def responseOfLine (base : Nat) (s : State) (k : Nat) : Response :=
  s.completions[base + (k - 1)]?.bind Completion.response

/-- The host assembles line `here` and presents its word; the moves still to come wait. -/
def runLine (base here : Nat) (l : Line) (s : State) : Host.Outcome State Fault Refusal :=
  match assembleLine (responseOfLine base s) here l with
  | .ok w => makeMove (.command w) (s.take (.command w) s.pending)
  | .error r => .refused r

/-- The lines from line `here` on, stopping at the first refusal. -/
def runLines (base here : Nat) : List Line → State → Host.Outcome State Fault Refusal
  | [], s => .next s
  | l :: ls, s =>
    match runLine base here l s with
    | .next t => runLines base (here + 1) ls t
    | .fault f => .fault f
    | .refused r => .refused r

/-- A listing, its lines numbered from 1 (30_encoding.md R45). -/
def runListing (ls : List Line) (s : State) : Host.Outcome State Fault Refusal :=
  runLines s.completions.length 1 ls s

/-- `COMPUTE s` expands to `CRC.INIT`, one `CRC.UPD` per byte, `CRC.RD` (30_encoding.md R46). -/
def computeLines (s : List Byte) : List Line :=
  .command .crcInit .none ::
    (s.map (fun b => .command .crcUpd (.number b.toNat)) ++ [.command .crcRd .none])

/-- `TRAILER` on line `here` expands to `CRC.RD` and `ENC16LE` of its response
(30_encoding.md R46). -/
def trailerLines (here : Nat) : List Line :=
  [.command .crcRd .none, .command .enc16le (.response here)]

/-- The same expansion of `COMPUTE` as the host moves it makes at the port. -/
def computeMoves (s : List Byte) : List HostMove :=
  .command (encode .crcInit) ::
    (s.map (fun b => .command (encode (.crcUpd b))) ++ [.command (encode .crcRd)])

/-- Verification (a): compare the checksum of the message with the received trailer
(41_crc.md R62). -/
def acceptsByCompare (m : List Byte) (r0 r1 : Byte) : Bool :=
  let rsp := numberResponse (compute m)
  lane rsp 0 == r0 && lane rsp 1 == r1

/-- Verification (b): the checksum of the whole frame is zero (41_crc.md R62). -/
def acceptsByResidue (m : List Byte) (r0 r1 : Byte) : Bool :=
  numberResponse (compute (m ++ [r0, r1])) == 0

/-- The frame of a message: its bytes, then its checksum low byte first (20_memory.md R28). -/
def frameOf (m : List Byte) : List Byte := m ++ encodeU16Le (compute m)

end Sys2Proof.Machine
end

