-- ==== Sys2Proof/Safety.lean ====
section
/-! DEFINITION. What claims are stated in terms of: what a list of host moves says of `CRC`, of
`ERR` and of the completions, the invariant that ties the state to it, and what a good run is. -/

namespace Sys2Proof.Safety

open Sys2Proof.Machine

/-- The word of a command move. -/
def commandOf : HostMove → Option CommandWord
  | .command w => some w
  | .reset _ => none

/-- A write of `CRC` by a command (10_state.md R16). -/
inductive CrcWrite where
  | seed
  | absorb (b : Byte)
  deriving DecidableEq, Repr

/-- Which write of `CRC`, if any, a command word performs (10_state.md R16). -/
def crcWriteOf (w : CommandWord) : Option CrcWrite :=
  match decode w with
  | .ok .crcInit => some .seed
  | .ok (.crcUpd b) => some (.absorb b)
  | _ => none

/-- The writes of `CRC` that a list of moves performs, in order. -/
def crcWrites (ms : List HostMove) : List CrcWrite :=
  ms.filterMap fun m => (commandOf m).bind crcWriteOf

/-- One more move, seen from the bytes absorbed since the last `CRC.INIT` or reset. -/
def absorbMove (s : List Byte) (m : HostMove) : List Byte :=
  match m with
  | .reset _ => []
  | .command w =>
    match crcWriteOf w with
    | some .seed => []
    | some (.absorb b) => s ++ [b]
    | none => s

/-- The bytes absorbed since the last `CRC.INIT` or reset (41_crc.md R63;
93_implementation_defined.md U10). -/
def absorbed (ms : List HostMove) : List Byte := ms.foldl absorbMove []

/-- At least one illegal word was accepted since the last reset (10_state.md R17). -/
def IllegalSinceReset (ms : List HostMove) : Prop :=
  ∃ before w after, ms = before ++ HostMove.command w :: after ∧ legal w = false ∧
    ∀ lost, HostMove.reset lost ∉ after

/-- The outcome of an accepted word (60_exceptions.md R66, R68). -/
def outcomeOfWord (w : CommandWord) : CommandOutcome :=
  if legal w then .ok else .fault .illegalCommand

/-- What holds of every state that a run from reset reaches: `CRC` is `compute` of the bytes
absorbed since the last `CRC.INIT` or reset, `ERR` says whether an illegal word was accepted
since the last reset, and the accepted commands have completed, each once and in order. -/
structure PortInvariant (s : State) : Prop where
  crc_eq : s.crc = compute (absorbed s.history)
  err_iff : s.err = true ↔ IllegalSinceReset s.history
  outcomes_eq : s.completions.map Completion.outcome =
    (s.history.filterMap commandOf).map outcomeOfWord

/-- "Nothing went wrong": no illegal word was accepted since the last reset, as the host reads it
on the output port `err` (60_exceptions.md R66; 70_reset_and_hazards.md R87). -/
abbrev GoodRun (s : State) : Prop := errPin s = 0

/-- The moves without the words that spell no operation. -/
def legalMoves (ms : List HostMove) : List HostMove :=
  ms.filter fun m => (commandOf m).all legal

/-- Every move is a command: no reset among them. -/
abbrev CommandsOnly (ms : List HostMove) : Prop := ∀ m ∈ ms, (commandOf m).isSome

/-- The completions of the commands that spelled an operation. -/
def okCompletions (s : State) : List Completion :=
  s.completions.filter fun c => decide (c.outcome = .ok)

end Sys2Proof.Safety
end

