-- ==== Sys2Proof/Certificates/Slice0/Obligations.lean ====
section
/-! DEFINITION. The statements for the provers. Each docstring names the rule of the spec it
formalises; one that rests on the model's own choice names the log entry. -/

open Sys2Proof Sys2Proof.Machine Sys2Proof.Safety

/-! ## The eight commands: result, completion and frame -/

/-- R50, whole: operand and encoding, the response lane by lane, and nothing else changes. -/
def Obligations.Enc16beRespondsHighByteFirst : Prop :=
  ∀ (n : Half) (s : State),
    decode (commandWord 0x1#4 (n.zeroExtend 32)) = .ok (.enc16be n) ∧
    ∃ rsp : Data,
      exec (.enc16be n) s = .next { s with completions := s.completions ++ [⟨some rsp, .ok⟩] } ∧
      rsp.extractLsb' 0 8 = n.extractLsb' 8 8 ∧
      rsp.extractLsb' 8 8 = n.extractLsb' 0 8 ∧
      rsp.extractLsb' 16 16 = 0

/-- R51, whole: `b0` is lane 0 of the operand and the high byte of the number. -/
def Obligations.Dec16beRespondsFirstByteAsHighByte : Prop :=
  ∀ (b0 b1 : Byte) (s : State),
    decode (commandWord 0x2#4 (lanesOf [b0, b1])) = .ok (.dec16be b0 b1) ∧
    ∃ rsp : Data,
      exec (.dec16be b0 b1) s =
        .next { s with completions := s.completions ++ [⟨some rsp, .ok⟩] } ∧
      rsp.toNat = 256 * b0.toNat + b1.toNat ∧
      rsp.extractLsb' 8 8 = b0 ∧ rsp.extractLsb' 0 8 = b1 ∧ rsp.extractLsb' 16 16 = 0

/-- R52, whole: the four bytes, most significant in lane 0. -/
def Obligations.Enc32beRespondsMostSignificantByteFirst : Prop :=
  ∀ (n : Data) (s : State),
    decode (commandWord 0x3#4 n) = .ok (.enc32be n) ∧
    ∃ rsp : Data,
      exec (.enc32be n) s = .next { s with completions := s.completions ++ [⟨some rsp, .ok⟩] } ∧
      rsp.extractLsb' 0 8 = n.extractLsb' 24 8 ∧
      rsp.extractLsb' 8 8 = n.extractLsb' 16 8 ∧
      rsp.extractLsb' 16 8 = n.extractLsb' 8 8 ∧
      rsp.extractLsb' 24 8 = n.extractLsb' 0 8

/-- R53, whole: `b0` is lane 0 of the operand and the most significant byte of the number. -/
def Obligations.Dec32beRespondsFirstByteAsMostSignificant : Prop :=
  ∀ (b0 b1 b2 b3 : Byte) (s : State),
    decode (commandWord 0x4#4 (lanesOf [b0, b1, b2, b3])) = .ok (.dec32be b0 b1 b2 b3) ∧
    ∃ rsp : Data,
      exec (.dec32be b0 b1 b2 b3) s =
        .next { s with completions := s.completions ++ [⟨some rsp, .ok⟩] } ∧
      rsp.toNat = 2 ^ 24 * b0.toNat + 2 ^ 16 * b1.toNat + 2 ^ 8 * b2.toNat + b3.toNat ∧
      rsp.extractLsb' 24 8 = b0 ∧ rsp.extractLsb' 16 8 = b1 ∧
      rsp.extractLsb' 8 8 = b2 ∧ rsp.extractLsb' 0 8 = b3

/-- R54, whole: the low byte in lane 0, so that the response has the operand's bits. -/
def Obligations.Enc16leRespondsLowByteFirst : Prop :=
  ∀ (n : Half) (s : State),
    decode (commandWord 0x5#4 (n.zeroExtend 32)) = .ok (.enc16le n) ∧
    ∃ rsp : Data,
      exec (.enc16le n) s = .next { s with completions := s.completions ++ [⟨some rsp, .ok⟩] } ∧
      rsp.extractLsb' 0 8 = n.extractLsb' 0 8 ∧
      rsp.extractLsb' 8 8 = n.extractLsb' 8 8 ∧
      rsp.extractLsb' 16 16 = 0 ∧
      rsp = dataField (commandWord 0x5#4 (n.zeroExtend 32))

/-- R59, whole: `CRC <- 0xFFFF` whatever it held, no response, `ERR` unchanged. -/
def Obligations.CrcInitSeedsTheRegister : Prop :=
  decode 0x800000000#36 = .ok .crcInit ∧
  ∀ s : State, exec .crcInit s =
    .next { s with crc := 0xFFFF#16, completions := s.completions ++ [⟨none, .ok⟩] }

/-- R60: one byte is absorbed by an XOR and eight iterations in one step, from every value of
`CRC`; no response, `ERR` unchanged. The iterations are those of R58 (`crcStep`). -/
def Obligations.CrcUpdAbsorbsOneByte : Prop :=
  ∀ (b : Byte) (s : State),
    decode (commandWord 0x9#4 (b.zeroExtend 32)) = .ok (.crcUpd b) ∧
    exec (.crcUpd b) s =
      .next { s with
        crc := crcStep (crcStep (crcStep (crcStep (crcStep (crcStep (crcStep (crcStep
          (s.crc ^^^ b.zeroExtend 16)))))))),
        completions := s.completions ++ [⟨none, .ok⟩] }

/-- R61, whole: the response is `CRC` zero-extended, and `CRC` keeps its value. -/
def Obligations.CrcRdRespondsRegister : Prop :=
  decode 0xA00000000#36 = .ok .crcRd ∧
  ∀ s : State, ∃ rsp : Data,
    exec .crcRd s = .next { s with completions := s.completions ++ [⟨some rsp, .ok⟩] } ∧
    rsp.extractLsb' 0 16 = s.crc ∧ rsp.extractLsb' 16 16 = 0

/-! ## The algorithm -/

/-- R58: `compute` from its three definitions: the shift is logical, the low bit is tested
before it, all of 0xA001 is XORed after it, the byte meets the low byte only, nothing is done
after the last byte, and the empty sequence gives the seed. -/
def Obligations.ComputeIsTheAlgorithm : Prop :=
  (∀ v : Half, crcStep v = if v.getLsbD 0 = true then (v >>> 1) ^^^ 0xA001#16 else v >>> 1) ∧
  (∀ (v : Half) (b : Byte), (v ^^^ b.zeroExtend 16).extractLsb' 8 8 = v.extractLsb' 8 8 ∧
    (v ^^^ b.zeroExtend 16).extractLsb' 0 8 = v.extractLsb' 0 8 ^^^ b) ∧
  (∀ (v : Half) (b : Byte), crcByte v b =
    crcStep (crcStep (crcStep (crcStep (crcStep (crcStep (crcStep (crcStep
      (v ^^^ b.zeroExtend 16))))))))) ∧
  compute [] = 0xFFFF#16 ∧
  ∀ (s : List Byte) (b : Byte), compute (s ++ [b]) = crcByte (compute s) b

/-- One iteration bit by bit, as R58 derives it from the definition. -/
def Obligations.CrcStepBitByBit : Prop :=
  ∀ v : Half, (crcStep v).getLsbD 15 = v.getLsbD 0 ∧
    (crcStep v).getLsbD 14 = v.getLsbD 15 ∧
    (crcStep v).getLsbD 13 = (v.getLsbD 14 ^^ v.getLsbD 0) ∧
    (crcStep v).extractLsb' 1 12 = v.extractLsb' 2 12 ∧
    (crcStep v).getLsbD 0 = (v.getLsbD 1 ^^ v.getLsbD 0)

/-- R65(a): no `CRC.UPD` loses information about the running value. -/
def Obligations.AbsorbingAByteIsABijection : Prop :=
  Function.Bijective crcStep ∧ ∀ b : Byte, Function.Bijective fun v => crcByte v b

/-- R65(b): linearity over XOR. -/
def Obligations.AbsorbingAByteIsLinear : Prop :=
  (∀ v w : Half, crcByte (v ^^^ w) 0 = crcByte v 0 ^^^ crcByte w 0) ∧
  ∀ (v : Half) (b : Byte), crcByte v b = crcByte (v ^^^ b.zeroExtend 16) 0

/-- R65(c): the 256-entry table form is the same function. -/
def Obligations.TableFormIsTheBitSerialForm : Prop :=
  ∀ (v : Half) (b : Byte),
    crcByte v b =
      (v.extractLsb' 8 8).zeroExtend 16 ^^^ crcByte 0 (v.extractLsb' 0 8 ^^^ b)

/-- R60, corner cases: 0x0000 and 0xC001 are the two values that a zero byte leaves unchanged,
and a byte equal to the low byte moves the high byte down. -/
def Obligations.ZeroByteFixesExactlyTwoValues : Prop :=
  (∀ v : Half, crcByte v 0 = v ↔ v = 0x0000#16 ∨ v = 0xC001#16) ∧
  ∀ v : Half, crcByte v (v.extractLsb' 0 8) = (v.extractLsb' 8 8).zeroExtend 16

/-! ## The codec's laws -/

/-- R55(a): every encode is a bijection, with its decode as inverse. -/
def Obligations.CodecRoundTrips : Prop :=
  (∀ n : Half, ∃ b0 b1, encodeU16Be n = [b0, b1] ∧ decodeU16Be b0 b1 = n) ∧
  (∀ b0 b1 : Byte, encodeU16Be (decodeU16Be b0 b1) = [b0, b1]) ∧
  (∀ n : Data, ∃ b0 b1 b2 b3, encodeU32Be n = [b0, b1, b2, b3] ∧ decodeU32Be b0 b1 b2 b3 = n) ∧
  ∀ b0 b1 b2 b3 : Byte, encodeU32Be (decodeU32Be b0 b1 b2 b3) = [b0, b1, b2, b3]

/-- R55(b), at the port: on every operand the two commands of a big-endian pair do the same to
the wires, each pair's function is its own inverse, and `ENC16LE` is the identity. -/
def Obligations.CodecPairsAgreeOnTheWires : Prop :=
  (∀ (d : Data) (s : State), d.extractLsb' 16 16 = 0 →
    acceptWord (commandWord 0x1#4 d) s = acceptWord (commandWord 0x2#4 d) s ∧
    acceptWord (commandWord 0x5#4 d) s =
      .next { s with completions := s.completions ++ [⟨some d, .ok⟩] } ∧
    ∃ e : Data, e.extractLsb' 16 16 = 0 ∧
      acceptWord (commandWord 0x1#4 d) s =
        .next { s with completions := s.completions ++ [⟨some e, .ok⟩] } ∧
      acceptWord (commandWord 0x2#4 e) s =
        .next { s with completions := s.completions ++ [⟨some d, .ok⟩] }) ∧
  ∀ (d : Data) (s : State),
    acceptWord (commandWord 0x3#4 d) s = acceptWord (commandWord 0x4#4 d) s ∧
    ∃ e : Data,
      acceptWord (commandWord 0x3#4 d) s =
        .next { s with completions := s.completions ++ [⟨some e, .ok⟩] } ∧
      acceptWord (commandWord 0x4#4 e) s =
        .next { s with completions := s.completions ++ [⟨some d, .ok⟩] }

/-- R55(c) and (d): reversal, and the 32-bit forms as two 16-bit forms. -/
def Obligations.WideCodecIsTwoNarrowOnes : Prop :=
  (∀ n : Half, encodeU16Le n = (encodeU16Be n).reverse) ∧
  (∀ n : Data, encodeU32Be n =
    encodeU16Be (n.extractLsb' 16 16) ++ encodeU16Be (n.extractLsb' 0 16)) ∧
  ∀ b0 b1 b2 b3 : Byte,
    (decodeU32Be b0 b1 b2 b3).extractLsb' 16 16 = decodeU16Be b0 b1 ∧
    (decodeU32Be b0 b1 b2 b3).extractLsb' 0 16 = decodeU16Be b2 b3

/-- R49: the response of a codec command depends on its operand alone, and no state is read or
written: one response serves every state. -/
def Obligations.CodecCommandsArePure : Prop :=
  ∀ i : Instr, i.mnemonic ∈ [.enc16be, .dec16be, .enc32be, .dec32be, .enc16le] →
    ∃ rsp : Data, ∀ s : State,
      exec i s = .next { s with completions := s.completions ++ [⟨some rsp, .ok⟩] }

/-- R25: a sequence's element `k` is in lane `k` and the lanes beyond it are zero; a number is
carried zero-extended; and the two consequences the rule states. -/
def Obligations.LanesCarrySequencesAndNumbers : Prop :=
  (∀ (s : List Byte) (k : Fin 4),
    (sequenceResponse s).extractLsb' (8 * k.val) 8 = s.getD k.val 0) ∧
  (∀ (n : Half) (i : Nat), (numberResponse n).getLsbD i = n.getLsbD i) ∧
  (∀ n : Half, sequenceResponse (encodeU16Le n) = numberResponse n) ∧
  ∀ n : Half, sequenceResponse (encodeU16Be n) =
    numberResponse (decodeU16Be (n.extractLsb' 0 8) (n.extractLsb' 8 8))

/-! ## Encoding -/

/-- R44: decode and encode agree in both directions: for every command with every operand (each
is well-formed by its types, `Laws.OperandFits`), and for every word. -/
def Obligations.DecodeAndEncodeAgree : Prop :=
  (∀ i : Instr, decode (encode i) = .ok i) ∧
  ∀ (w : CommandWord) (i : Instr), decode w = .ok i → encode i = w

/-- R40: a word spells an operation exactly when it matches that row of the opcode map. -/
def Obligations.WordSpellsItsMatchingRow : Prop :=
  ∀ (w : CommandWord) (m : Mnemonic),
    (∃ i, decode w = .ok i ∧ i.mnemonic = m) ↔ w &&& m.maskBits = m.matchBits

/-- R38: bits 35 to 32 are the operation code, the low bits hold the payload of the format, and
the reserved bits above it are zero. -/
def Obligations.OperandSitsInItsFormat : Prop :=
  ∀ i : Instr,
    (encode i).toNat = 2 ^ 32 * i.mnemonic.opCode.toNat + i.payload ∧
    i.payload < 2 ^ i.mnemonic.format.payloadBits

/-- R41: a reserved operation code is illegal whatever its data bits. -/
def Obligations.ReservedOperationCodesRaiseIllegalCommand : Prop :=
  ∀ op ∈ ([0x0, 0x6, 0x7, 0xB, 0xC, 0xD, 0xE, 0xF] : List OpCode), ∀ (d : Data) (s : State),
    acceptWord (commandWord op d) s =
      .next { s with
        err := true
        completions := s.completions ++ [⟨none, .fault .illegalCommand⟩] }

/-- R42: an assigned operation code with a reserved data bit set is illegal and the operation is
not performed in whole or in part; and the count of legal words. -/
def Obligations.ReservedDataBitsRaiseIllegalCommand : Prop :=
  (∀ (m : Mnemonic) (d : Data) (s : State), 2 ^ m.format.payloadBits ≤ d.toNat →
    acceptWord (commandWord m.opCode d) s =
      .next { s with
        err := true
        completions := s.completions ++ [⟨none, .fault .illegalCommand⟩] }) ∧
  Nat.card { w : CommandWord // legal w = true } = 2 * 2 ^ 32 + 3 * 2 ^ 16 + 2 ^ 8 + 2

/-- Words of the spec's own list (95_test_vectors.md V16), at least one for each command. -/
def Obligations.DecodesTheSpecsExampleWords : Prop :=
  decode 0x100001234#36 = .ok (.enc16be 0x1234) ∧
  decode 0x20000CDAB#36 = .ok (.dec16be 0xAB 0xCD) ∧
  decode 0x3FFFFFFFF#36 = .ok (.enc32be 0xFFFFFFFF) ∧
  decode 0x478563412#36 = .ok (.dec32be 0x12 0x34 0x56 0x78) ∧
  decode 0x50000C8C5#36 = .ok (.enc16le 0xC8C5) ∧
  decode 0x800000000#36 = .ok .crcInit ∧
  decode 0x9000000FF#36 = .ok (.crcUpd 0xFF) ∧
  decode 0xA00000000#36 = .ok .crcRd ∧
  legal 0x000000000#36 = false ∧ legal 0x110001234#36 = false ∧
  legal 0x5C8C50000#36 = false ∧ legal 0x80000FFFF#36 = false ∧
  legal 0x900000103#36 = false ∧ legal 0xFFFFFFFFF#36 = false

/-! ## The step -/

/-- R10, R33: a step with a legal word at the head of the moves to come is `exec` of the command
it decodes to, in the state with that move passed to the moves made (log entry 2). -/
def Obligations.StepRunsTheDecodedCommand : Prop :=
  ∀ (s : State) (w : CommandWord) (rest : List HostMove) (i : Instr),
    s.pending = .command w :: rest → decode w = .ok i →
    step s = exec i { s with pending := rest, history := s.history ++ [.command w] }

/-- R33, R44: a command whose one word the host presents next runs at the next step, in the
state it was presented in, and the moves that were to come still are (presenting a word is
`State.withFetchWord`: log entries 2 and 9). -/
def Obligations.PresentedCommandRunsNext : Prop :=
  ∀ (s : State) (i : Instr),
    decodeTableWord 36 (encode i).toNat = some i ∧
    step (s.withFetchWord 36 (encode i).toNat) =
      exec i { s with history := s.history ++ [.command (encode i)] }

/-- R66: raised when, and only when, the accepted word spells no operation; `ERR <- 1` and
nothing else of the block changes, the word completes without a response. -/
def Obligations.IllegalCommandSetsErrAndNothingElse : Prop :=
  ∀ (s : State) (w : CommandWord) (rest : List HostMove), s.pending = .command w :: rest →
    (legal w = false →
      step s = .next { s with
        err := true
        pending := rest
        history := s.history ++ [.command w]
        completions := s.completions ++ [⟨none, .fault .illegalCommand⟩] }) ∧
    (legal w = true → ∃ t r, step s = .next t ∧ t.err = s.err ∧
      t.completions = s.completions ++ [⟨r, .ok⟩])

/-- R24: the reset values, in the state after reset and after a reset move from every state. -/
def Obligations.ResetGivesTheResetValues : Prop :=
  (State.reset.crc = 0xFFFF#16 ∧ State.reset.err = false) ∧
  ∀ (s : State) (lost : Option CommandWord) (rest : List HostMove),
    s.pending = .reset lost :: rest →
    ∃ t, step s = .next t ∧ t.crc = 0xFFFF#16 ∧ t.err = false ∧ t.pending = rest

/-- R80: a command that reset abandons leaves no trace: no completion, not a part of a
`CRC.UPD`, not `ERR`; the step is that of a reset that lost no command, but for the host's own
record of its move. -/
def Obligations.ResetAbandonsTheCommandInFlight : Prop :=
  ∀ (s : State) (w : CommandWord) (rest : List HostMove),
    step { s with pending := .reset (some w) :: rest } =
      .next { s with
        crc := 0xFFFF#16
        err := false
        pending := rest
        history := s.history ++ [.reset (some w)] }

/-- R78: between commands the block is idle and holds its state (that the step then answers the
same state is the model's choice, log entry 2). -/
def Obligations.IdleBlockHoldsItsState : Prop :=
  ∀ s : State, s.pending = [] → step s = .next s

/-- R68: every legal word, from every state: the outcome is ok, `ERR` is as it was, and the
value of `ERR` changes nothing of what the command does. -/
def Obligations.LegalCommandsNeverFault : Prop :=
  ∀ (w : CommandWord) (s : State), legal w = true →
    ∃ t r, acceptWord w s = .next t ∧ t.completions = s.completions ++ [⟨r, .ok⟩] ∧
      t.err = s.err ∧
      ∀ e : Bool, acceptWord w { s with err := e } = .next { t with err := e }

/-! ## Rules about every step -/

/-- R17, R72: no command clears `ERR`, only reset does. -/
def Obligations.OnlyResetClearsErr : Prop :=
  ∀ s t : State, step s = .next t → s.err = true → t.err = false →
    ∃ lost rest, s.pending = .reset lost :: rest

/-- R16: only `CRC.INIT`, `CRC.UPD` and reset write `CRC`. -/
def Obligations.OnlyCrcCommandsAndResetWriteCrc : Prop :=
  ∀ s t : State, step s = .next t → t.crc ≠ s.crc →
    (∃ lost rest, s.pending = .reset lost :: rest) ∨
    ∃ w rest, s.pending = .command w :: rest ∧
      (decode w = .ok .crcInit ∨ ∃ b, decode w = .ok (.crcUpd b))

/-- R16: only `CRC.UPD` and `CRC.RD` read `CRC`: any other word, legal or not, gives the same
completions from every value of it and leaves it as it was or at the same value. -/
def Obligations.OnlyUpdAndRdReadCrc : Prop :=
  ∀ w : CommandWord, decode w ≠ .ok .crcRd → (∀ b, decode w ≠ .ok (.crcUpd b)) →
    ∀ (s : State) (v : Half), ∃ t u,
      acceptWord w s = .next t ∧ acceptWord w { s with crc := v } = .next u ∧
      u = { t with crc := u.crc } ∧ (u.crc = t.crc ∨ (t.crc = s.crc ∧ u.crc = v))

/-- R31: every command but `CRC.UPD` is idempotent. -/
def Obligations.AllButUpdAreIdempotent : Prop :=
  ∀ (i : Instr) (s t u : State), (∀ b, i ≠ .crcUpd b) →
    exec i s = .next t → exec i t = .next u →
    u.crc = t.crc ∧ u.err = t.err ∧ t.completions.getLast? = u.completions.getLast?

/-- The invariant that ties `CRC`, `ERR` and the completions to the moves made (R17, R37, R63;
93_implementation_defined.md U10): every step keeps it. `history` and `completions` are the
model's own fields (log entry 2). -/
def Obligations.StepKeepsThePortInvariant : Prop :=
  ∀ s t : State, PortInvariant s → step s = .next t → PortInvariant t

/-- The invariant holds after reset. R24 gives the values of `CRC` and `ERR` there; that `history`
and `completions` are empty after reset is the model's choice (log entry 2), and this statement
rests on it. -/
def Obligations.ResetMeetsThePortInvariant : Prop := PortInvariant State.reset

/-! ## Runs -/

/-- R37, R66: the block never hangs: every move to come is made, and every accepted command,
legal or not, completes exactly once. -/
def Obligations.EveryAcceptedCommandCompletesOnce : Prop :=
  ∀ s : State, ∃ t, Sys2Proof.core.run s.pending.length s = .next t ∧
    t.pending = [] ∧ t.history = s.history ++ s.pending ∧
    t.completions.length = s.completions.length + (s.pending.filterMap commandOf).length

/-- R33: what a command does and gives back reflects the moves before it and none after it. -/
def Obligations.CompletionsIgnoreLaterMoves : Prop :=
  ∀ (s : State) (ms later : List HostMove), ∃ t,
    Sys2Proof.core.run ms.length { s with pending := ms } = .next t ∧
    Sys2Proof.core.run ms.length { s with pending := ms ++ later } =
      .next { t with pending := later }

/-- R17: `ERR` does not change what any later command does: two runs that differ in `ERR` alone
give the same `CRC` and the same completions. -/
def Obligations.ErrHasNoInfluence : Prop :=
  ∀ (k : Nat) (s : State) (e : Bool), ∃ t e',
    Sys2Proof.core.run k s = .next t ∧
    Sys2Proof.core.run k { s with err := e } = .next { t with err := e' }

/-- R66: the fault is precise: a run is, for `CRC` and for the responses of the legal commands,
the run without the illegal words. -/
def Obligations.IllegalWordsAreAsIfAbsent : Prop :=
  ∀ (ms : List HostMove) (s : State), ∃ t u,
    Sys2Proof.core.run ms.length { s with pending := ms } = .next t ∧
    Sys2Proof.core.run (legalMoves ms).length { s with pending := legalMoves ms } = .next u ∧
    t.crc = u.crc ∧ okCompletions t = okCompletions u

/-- R66, R87: `ERR = 0` at the end of a run of commands covers the whole run. -/
def Obligations.ClearErrMeansEveryWordWasLegal : Prop :=
  ∀ (ms : List HostMove) (s : State), CommandsOnly ms → s.err = false →
    ∃ t, Sys2Proof.core.run ms.length { s with pending := ms } = .next t ∧
      (GoodRun t ↔ ∀ w, .command w ∈ ms → legal w = true)

/-- R46, R63: `COMPUTE` at the port, from every start state and whatever follows: the register
holds `compute` of the bytes and the last command responds it. -/
def Obligations.ComputeSequenceReturnsTheChecksum : Prop :=
  ∀ (bytes : List Byte) (s : State) (rest : List HostMove),
    Sys2Proof.core.run (bytes.length + 2) { s with pending := computeMoves bytes ++ rest } =
      .next { s with
        crc := compute bytes
        pending := rest
        history := s.history ++ computeMoves bytes
        completions := s.completions ++ List.replicate (bytes.length + 1) ⟨none, .ok⟩ ++
          [⟨some ((compute bytes).zeroExtend 32), .ok⟩] }

/-- R63: the same with any other words interleaved: if the writes of `CRC` among the commands
are a seed and then the bytes, the register holds `compute` of the bytes, from every state. -/
def Obligations.InterleavedCommandsLeaveTheChecksum : Prop :=
  ∀ (ms : List HostMove) (bytes : List Byte) (s : State), CommandsOnly ms →
    crcWrites ms = .seed :: bytes.map .absorb →
    ∃ t, Sys2Proof.core.run ms.length { s with pending := ms } = .next t ∧
      t.crc = compute bytes

/-- R63: a checksum may be computed in pieces, from any running value. -/
def Obligations.ChecksumMayBeComputedInPieces : Prop :=
  (∀ (bytes : List Byte) (s : State), ∃ t,
    Sys2Proof.core.run bytes.length
      { s with pending := bytes.map fun b => .command (encode (.crcUpd b)) } = .next t ∧
    t.crc = bytes.foldl crcByte s.crc) ∧
  ∀ a b : List Byte, compute (a ++ b) = b.foldl crcByte (compute a)

/-- R16: all 65,536 values of `CRC` are reachable from reset. -/
def Obligations.EveryCrcValueIsReachable : Prop :=
  ∀ v : Half, ∃ ms t, CommandsOnly ms ∧
    Sys2Proof.core.run ms.length { State.reset with pending := ms } = .next t ∧
    t.crc = v ∧ t.err = false

/-! ## The host's compositions -/

/-- R62: the two ways to verify a received frame agree, and accept exactly the trailer that is
the checksum low byte first. -/
def Obligations.TheTwoVerificationsAgree : Prop :=
  ∀ (m : List Byte) (r0 r1 : Byte),
    acceptsByCompare m r0 r1 = acceptsByResidue m r0 r1 ∧
    (acceptsByResidue m r0 r1 = true ↔ m ++ [r0, r1] = frameOf m)

/-- R62: a trailer in the wrong order is accepted only where its two bytes are equal. -/
def Obligations.SwappedTrailerIsRejected : Prop :=
  ∀ m : List Byte,
    acceptsByResidue m ((compute m).extractLsb' 8 8) ((compute m).extractLsb' 0 8) = true ↔
      (compute m).extractLsb' 8 8 = (compute m).extractLsb' 0 8

/-- R45, R46, R28: the listing `COMPUTE m; TRAILER`, from every state: it completes, its last
response holds in lanes 0 and 1 the trailer that makes the frame verify, and neither `ERR` nor
the moves to come change (the listing's line numbers: log entry 7). -/
def Obligations.ComputeThenTrailerBuildsAVerifyingFrame : Prop :=
  ∀ (m : List Byte) (s : State), ∃ t rsp,
    runListing (computeLines m ++ trailerLines (m.length + 3)) s = .next t ∧
    t.crc = compute m ∧ t.err = s.err ∧ t.pending = s.pending ∧
    t.completions.length = s.completions.length + (m.length + 4) ∧
    t.completions.getLast? = some ⟨some rsp, .ok⟩ ∧
    frameOf m = m ++ [lane rsp 0, lane rsp 1] ∧
    acceptsByResidue m (lane rsp 0) (lane rsp 1) = true

/-- R45, R87 and 93_implementation_defined.md U2: a `$` operand is the response of that line
unchanged, and the host's forwarding of a response that does not exist is refused (log
entry 7). -/
def Obligations.ForwardingTakesTheResponseUnchanged : Prop :=
  ∀ (base here k : Nat) (m : Mnemonic) (s : State),
    (Line.command m (.response k)).wf here = true →
    (∀ d, responseOfLine base s k = some d →
      runLine base here (.command m (.response k)) s =
        acceptWord (commandWord m.opCode d)
          { s with history := s.history ++ [.command (commandWord m.opCode d)] }) ∧
    (responseOfLine base s k = none →
      runLine base here (.command m (.response k)) s = .refused .forwardsNoResponse)
end

