-- ==== Sys2Proof/Laws/Crc.lean ====
section
/-! SUPPORT. The CRC algorithm: its iterations written out, and folding over sequences. -/

namespace Sys2Proof.Machine

/-- The eight iterations written out, as the rule writes them (41_crc.md R58). -/
theorem crcByte_eq (v : Half) (b : Byte) :
    crcByte v b = crcStep (crcStep (crcStep (crcStep (crcStep (crcStep (crcStep (crcStep
      (v ^^^ b.zeroExtend 16)))))))) := rfl

@[simp] theorem crcBytes_nil (v : Half) : crcBytes v [] = v := rfl

@[simp] theorem crcBytes_cons (v : Half) (b : Byte) (s : List Byte) :
    crcBytes v (b :: s) = crcBytes (crcByte v b) s := rfl

theorem crcBytes_append (v : Half) (s t : List Byte) :
    crcBytes v (s ++ t) = crcBytes (crcBytes v s) t := by
  simp [crcBytes, List.foldl_append]

@[simp] theorem compute_nil : compute [] = 0xFFFF#16 := rfl

/-- A step as one XOR: of the shifted value, and of the constant or zero (41_crc.md R58). -/
theorem crcStep_eq (v : Half) :
    crcStep v = (v >>> 1) ^^^ (if v.getLsbD 0 then Config.poly else 0) := by
  unfold crcStep
  split <;> simp

end Sys2Proof.Machine
end

