-- ==== Sys2Proof/Laws/Decode.lean ====
section
/-! SUPPORT. Fields of a command word, lanes of a bus, and what the decoder can answer. -/

namespace Sys2Proof

/-- Bit `i` of a command word is a data bit below 32 and an operation code bit above. -/
theorem getLsbD_commandWord (op : OpCode) (d : Data) (i : Nat) :
    (commandWord op d).getLsbD i = if i < 32 then d.getLsbD i else op.getLsbD (i - 32) :=
  BitVec.getLsbD_append (x := op) (y := d)

@[simp] theorem opField_commandWord (op : OpCode) (d : Data) : opField (commandWord op d) = op := by
  apply BitVec.eq_of_getLsbD_eq
  intro i hi
  simp [opField, getLsbD_commandWord, hi]

@[simp] theorem dataField_commandWord (op : OpCode) (d : Data) :
    dataField (commandWord op d) = d := by
  apply BitVec.eq_of_getLsbD_eq
  intro i hi
  simp [dataField, getLsbD_commandWord, hi]

/-- A command word is its two fields (30_encoding.md R37). -/
theorem commandWord_fields (w : CommandWord) : commandWord (opField w) (dataField w) = w := by
  apply BitVec.eq_of_getLsbD_eq
  intro i hi
  rw [getLsbD_commandWord]
  split
  · simp [dataField, *]
  · simp [opField, show i - 32 < 4 by omega, show 32 + (i - 32) = i by omega]

/-- Bit `i` of a bus that carries `s`, lane by lane (20_memory.md R25). -/
theorem getLsbD_lanesOf (s : List Byte) (i : Nat) :
    (lanesOf s).getLsbD i =
      if i < 8 then (s.getD 0 0).getLsbD i
      else if i < 16 then (s.getD 1 0).getLsbD (i - 8)
      else if i < 24 then (s.getD 2 0).getLsbD (i - 16)
      else (s.getD 3 0).getLsbD (i - 24) := by
  have h : (lanesOf s).getLsbD i =
      BitVec.getLsbD (w := 8 + 8 + 8 + 8)
        (s.getD 3 0 ++ s.getD 2 0 ++ s.getD 1 0 ++ s.getD 0 0) i := rfl
  rw [h, BitVec.getLsbD_append, BitVec.getLsbD_append, BitVec.getLsbD_append]
  by_cases h0 : i < 8
  · simp [h0]
  by_cases h1 : i < 16
  · simp [h0, h1, show i - 8 < 8 by omega]
  by_cases h2 : i < 24
  · simp [h0, h1, h2, show ¬ i - 8 < 8 by omega, show i - 16 < 8 by omega,
      show i - 8 - 8 = i - 16 by omega]
  · simp [h0, h1, h2, show ¬ i - 8 < 8 by omega, show ¬ i - 8 - 8 < 8 by omega,
      show i - 8 - 8 - 8 = i - 24 by omega]

/-- Lane `k` of a bus that carries `s` is `s[k]`, zero beyond the sequence (20_memory.md R25). -/
theorem lane_lanesOf (s : List Byte) {k : Nat} (hk : k < 4) : lane (lanesOf s) k = s.getD k 0 := by
  apply BitVec.eq_of_getLsbD_eq
  intro i hi
  have : k = 0 ∨ k = 1 ∨ k = 2 ∨ k = 3 := by omega
  rcases this with rfl | rfl | rfl | rfl
  · simp [lane, getLsbD_lanesOf, hi]
  · simp [lane, getLsbD_lanesOf, hi, show 8 + i < 16 by omega]
  · simp [lane, getLsbD_lanesOf, hi, show ¬ 16 + i < 8 by omega, show 16 + i < 24 by omega]
  · simp [lane, getLsbD_lanesOf, hi, show ¬ 24 + i < 8 by omega, show ¬ 24 + i < 16 by omega]

/-- A bus is its four lanes. -/
theorem lanesOf_lanes (d : Data) : lanesOf [lane d 0, lane d 1, lane d 2, lane d 3] = d := by
  apply BitVec.eq_of_getLsbD_eq
  intro i hi
  rw [getLsbD_lanesOf]
  by_cases h0 : i < 8
  · simp [lane, h0]
  by_cases h1 : i < 16
  · simp [lane, h0, h1, show i - 8 < 8 by omega, show 8 + (i - 8) = i by omega]
  by_cases h2 : i < 24
  · simp [lane, h0, h1, h2, show i - 16 < 8 by omega, show 16 + (i - 16) = i by omega]
  · simp [lane, h0, h1, h2, show i - 24 < 8 by omega, show 24 + (i - 24) = i by omega]

/-- Decoding a word given by its fields (30_encoding.md R44). -/
theorem decode_commandWord (op : OpCode) (d : Data) :
    decode (commandWord op d) = decodeFields op d := by
  simp [decode]

/-- What `ifReservedZero` answers with an operation. -/
theorem ifReservedZero_eq_ok {z : Bool} {i j : Instr} :
    ifReservedZero z i = .ok j ↔ z = true ∧ i = j := by
  cases z <;> simp [ifReservedZero]

/-- A word is legal exactly when it decodes to some operation. -/
theorem legal_iff (w : CommandWord) : legal w = true ↔ ∃ i, decode w = .ok i := by
  unfold legal
  cases decode w <;> simp [Except.isOk, Except.toBool]

theorem not_legal_iff (w : CommandWord) : legal w = false ↔ ∃ e, decode w = .error e := by
  unfold legal
  cases decode w <;> simp [Except.isOk, Except.toBool]

end Sys2Proof
end

