-- ==== Sys2Proof/Laws/PerInstr.lean ====
section
/-! SUPPORT. A statement about every command as syntax: its operand fits its format
(30_encoding.md R38, R42; "in-range by construction", 40_codec.md R49). -/

namespace Sys2Proof.Laws.OperandFits

def Statement (i : Instr) : Prop := i.wf = true

theorem enc16be (n : Half) : Statement (.enc16be n) :=
  decide_eq_true n.isLt

theorem dec16be (b0 b1 : Byte) : Statement (.dec16be b0 b1) := by
  have := b0.isLt
  have := b1.isLt
  apply decide_eq_true
  show b0.toNat + 256 * b1.toNat < 2 ^ 16
  omega

theorem enc32be (n : Data) : Statement (.enc32be n) :=
  decide_eq_true n.isLt

theorem dec32be (b0 b1 b2 b3 : Byte) : Statement (.dec32be b0 b1 b2 b3) := by
  have := b0.isLt
  have := b1.isLt
  have := b2.isLt
  have := b3.isLt
  apply decide_eq_true
  show b0.toNat + 256 * (b1.toNat + 256 * (b2.toNat + 256 * b3.toNat)) < 2 ^ 32
  omega

theorem enc16le (n : Half) : Statement (.enc16le n) :=
  decide_eq_true n.isLt

theorem crcInit : Statement .crcInit := rfl

theorem crcUpd (b : Byte) : Statement (.crcUpd b) :=
  decide_eq_true b.isLt

theorem crcRd : Statement .crcRd := rfl

end Sys2Proof.Laws.OperandFits
end

