-- ==== Sys2Proof/Laws/State.lean ====
section
/-! SUPPORT. One lemma per field per update of the state. -/

namespace Sys2Proof.Machine

variable (s : State) (v : Half) (r : Response) (o : CommandOutcome) (d : Data)
  (m : HostMove) (rest : List HostMove)

@[simp] theorem State.readCrc_eq : s.readCrc = s.crc := rfl

@[simp] theorem State.writeCrc_crc : (s.writeCrc v).crc = v := rfl
@[simp] theorem State.writeCrc_err : (s.writeCrc v).err = s.err := rfl
@[simp] theorem State.writeCrc_pending : (s.writeCrc v).pending = s.pending := rfl
@[simp] theorem State.writeCrc_history : (s.writeCrc v).history = s.history := rfl
@[simp] theorem State.writeCrc_completions : (s.writeCrc v).completions = s.completions := rfl

@[simp] theorem State.complete_crc : (s.complete r o).crc = s.crc := rfl
@[simp] theorem State.complete_err : (s.complete r o).err = s.err := rfl
@[simp] theorem State.complete_pending : (s.complete r o).pending = s.pending := rfl
@[simp] theorem State.complete_history : (s.complete r o).history = s.history := rfl
@[simp] theorem State.complete_completions :
    (s.complete r o).completions = s.completions ++ [⟨r, o⟩] := rfl

@[simp] theorem State.respond_crc : (s.respond d).crc = s.crc := rfl
@[simp] theorem State.respond_err : (s.respond d).err = s.err := rfl
@[simp] theorem State.respond_pending : (s.respond d).pending = s.pending := rfl
@[simp] theorem State.respond_history : (s.respond d).history = s.history := rfl
@[simp] theorem State.respond_completions :
    (s.respond d).completions = s.completions ++ [⟨some d, .ok⟩] := rfl

@[simp] theorem State.finish_crc : s.finish.crc = s.crc := rfl
@[simp] theorem State.finish_err : s.finish.err = s.err := rfl
@[simp] theorem State.finish_pending : s.finish.pending = s.pending := rfl
@[simp] theorem State.finish_history : s.finish.history = s.history := rfl
@[simp] theorem State.finish_completions :
    s.finish.completions = s.completions ++ [⟨none, .ok⟩] := rfl

@[simp] theorem State.raiseIllegalCommand_crc : s.raiseIllegalCommand.crc = s.crc := rfl
@[simp] theorem State.raiseIllegalCommand_err : s.raiseIllegalCommand.err = true := rfl
@[simp] theorem State.raiseIllegalCommand_pending :
    s.raiseIllegalCommand.pending = s.pending := rfl
@[simp] theorem State.raiseIllegalCommand_history :
    s.raiseIllegalCommand.history = s.history := rfl
@[simp] theorem State.raiseIllegalCommand_completions :
    s.raiseIllegalCommand.completions =
      s.completions ++ [⟨none, .fault .illegalCommand⟩] := rfl

@[simp] theorem State.applyReset_crc : s.applyReset.crc = 0xFFFF#16 := rfl
@[simp] theorem State.applyReset_err : s.applyReset.err = false := rfl
@[simp] theorem State.applyReset_pending : s.applyReset.pending = s.pending := rfl
@[simp] theorem State.applyReset_history : s.applyReset.history = s.history := rfl
@[simp] theorem State.applyReset_completions : s.applyReset.completions = s.completions := rfl

@[simp] theorem State.take_crc : (s.take m rest).crc = s.crc := rfl
@[simp] theorem State.take_err : (s.take m rest).err = s.err := rfl
@[simp] theorem State.take_pending : (s.take m rest).pending = rest := rfl
@[simp] theorem State.take_history : (s.take m rest).history = s.history ++ [m] := rfl
@[simp] theorem State.take_completions : (s.take m rest).completions = s.completions := rfl

@[simp] theorem State.reset_crc : State.reset.crc = 0xFFFF#16 := rfl
@[simp] theorem State.reset_err : State.reset.err = false := rfl
@[simp] theorem State.reset_pending : State.reset.pending = [] := rfl
@[simp] theorem State.reset_history : State.reset.history = [] := rfl
@[simp] theorem State.reset_completions : State.reset.completions = [] := rfl

end Sys2Proof.Machine
end

