-- ==== Sys2Proof/Laws/Step.lean ====
section
/-! SUPPORT. Everything a command and a step can do, said once. -/

namespace Sys2Proof.Machine

/-- The value a command leaves in `CRC`. -/
def crcAfter (v : Half) : Instr → Half
  | .crcInit => Config.seed
  | .crcUpd b => crcByte v b
  | _ => v

/-- The response of a command. -/
def responseOf (v : Half) : Instr → Response
  | .enc16be n => some (sequenceResponse (encodeU16Be n))
  | .dec16be b0 b1 => some (numberResponse (decodeU16Be b0 b1))
  | .enc32be n => some (sequenceResponse (encodeU32Be n))
  | .dec32be b0 b1 b2 b3 => some (decodeU32Be b0 b1 b2 b3)
  | .enc16le n => some (sequenceResponse (encodeU16Le n))
  | .crcInit => none
  | .crcUpd _ => none
  | .crcRd => some (numberResponse v)

/-- Everything a command can do: it writes `CRC`, or writes back what `CRC` held, and completes
once with outcome ok. -/
theorem exec_eq (i : Instr) (s : State) :
    exec i s = .next ((s.writeCrc (crcAfter s.crc i)).complete (responseOf s.crc i) .ok) := by
  cases i <;> rfl

/-- What an accepted word does, by what it decodes to. -/
theorem acceptWord_of_ok {w : CommandWord} {i : Instr} (h : decode w = .ok i) (s : State) :
    acceptWord w s = exec i s := by
  simp only [acceptWord, h]

theorem acceptWord_of_error {w : CommandWord} {e : IllegalWord} (h : decode w = .error e)
    (s : State) : acceptWord w s = .next s.raiseIllegalCommand := by
  simp only [acceptWord, h]

/-- The step with no move to come, and with one. -/
theorem step_nil {s : State} (h : s.pending = []) : step s = idle s := by
  simp only [step, h]

theorem step_cons {s : State} {m : HostMove} {rest : List HostMove} (h : s.pending = m :: rest) :
    step s = makeMove m (s.take m rest) := by
  simp only [step, h]

/-- Everything a step can do. -/
theorem step_cases (s : State) :
    (s.pending = [] ∧ step s = .next s) ∨
    (∃ lost rest, s.pending = .reset lost :: rest ∧
      step s = .next (s.take (.reset lost) rest).applyReset) ∨
    (∃ w rest i, s.pending = .command w :: rest ∧ decode w = .ok i ∧
      step s = exec i (s.take (.command w) rest)) ∨
    (∃ w rest e, s.pending = .command w :: rest ∧ decode w = .error e ∧
      step s = .next (s.take (.command w) rest).raiseIllegalCommand) := by
  cases h : s.pending with
  | nil => exact .inl ⟨rfl, step_nil h⟩
  | cons m rest =>
    cases m with
    | reset lost => exact .inr (.inl ⟨lost, rest, rfl, step_cons h⟩)
    | command w =>
      cases hd : decode w with
      | ok i => exact .inr (.inr (.inl ⟨w, rest, i, rfl, hd, by
          rw [step_cons h]; exact acceptWord_of_ok hd _⟩))
      | error e => exact .inr (.inr (.inr ⟨w, rest, e, rfl, hd, by
          rw [step_cons h]; exact acceptWord_of_error hd _⟩))

/-- One more step of a run. -/
theorem run_succ_of_next {s t : State} (k : Nat) (h : step s = .next t) :
    Sys2Proof.core.run (k + 1) s = Sys2Proof.core.run k t := by
  have h' : Sys2Proof.core.step s = .next t := h
  simp only [Host.Core.run, h']

/-- A run of no steps. -/
theorem run_zero (s : State) : Sys2Proof.core.run 0 s = .next s := rfl

end Sys2Proof.Machine
end

