-- ==== Sys2Proof/Tests/Slice0.lean ====
section
/-! SUPPORT. Tests. Expected values are the spec's own: the worked words and vectors of
95_test_vectors.md (V1 to V17) and the rules' corner cases, named at each group. The last part
holds one witness for the hypotheses of every obligation that has some. -/

namespace Sys2Proof.Tests

open Sys2Proof.Machine Sys2Proof.Safety

/-! ## Helpers -/

/-- A block state with the given registers and no host moves. -/
def regs (crc : Half) (err : Bool) : State := { State.reset with crc := crc, err := err }

/-- The same with moves to come. -/
def regsWith (crc : Half) (err : Bool) (ms : List HostMove) : State :=
  { regs crc err with pending := ms }

/-- `(CRC, ERR)` and the last completion after a step or a command. -/
def seen : Host.Outcome State Fault Refusal → Option (Half × Bool × Option Completion)
  | .next t => some (t.crc, t.err, t.completions.getLast?)
  | .fault _ => none
  | .refused _ => none

/-- The refusal, if any. -/
def refusalOf : Host.Outcome State Fault Refusal → Option Refusal
  | .refused r => some r
  | .next _ => none
  | .fault _ => none

def okWith (d : Data) : Option Completion := some ⟨some d, .ok⟩
def okNone : Option Completion := some ⟨none, .ok⟩
def illegal : Option Completion := some ⟨none, .fault .illegalCommand⟩

/-- The command a word decodes to. -/
def decoded (w : CommandWord) : Option Instr := (decode w).toOption

/-! ## Well-formed lines: each check refuses an ill-formed term (30_encoding.md R45) -/

theorem test_wf_enc16_range : (Line.command .enc16be (.number 0x10000)).wf 1 = false := by decide
theorem test_wf_enc16le_range : (Line.command .enc16le (.number 0x10000)).wf 1 = false := by decide
theorem test_wf_enc32_range :
    (Line.command .enc32be (.number 0x100000000)).wf 1 = false := by decide
theorem test_wf_upd_range : (Line.command .crcUpd (.number 0x100)).wf 1 = false := by decide
theorem test_wf_dec16_length : (Line.command .dec16be (.bytes [1])).wf 1 = false := by decide
theorem test_wf_dec16_byte : (Line.command .dec16be (.bytes [1, 0x100])).wf 1 = false := by decide
theorem test_wf_dec32_length : (Line.command .dec32be (.bytes [1, 2])).wf 1 = false := by decide
theorem test_wf_dec32_byte :
    (Line.command .dec32be (.bytes [1, 2, 3, 0x100])).wf 1 = false := by decide
theorem test_wf_init_operand : (Line.command .crcInit (.number 0)).wf 1 = false := by decide
theorem test_wf_rd_operand : (Line.command .crcRd (.response 1)).wf 2 = false := by decide
theorem test_wf_missing_operand : (Line.command .crcUpd .none).wf 1 = false := by decide
theorem test_wf_forward_later : (Line.command .enc16le (.response 2)).wf 2 = false := by decide
theorem test_wf_forward_line_zero : (Line.command .enc16le (.response 0)).wf 2 = false := by decide
theorem test_wf_word_range : (Line.word 0x1000000000).wf 1 = false := by decide
theorem test_wf_accepts :
    (Line.command .enc16le (.response 10)).wf 11 = true ∧
    (Line.command .dec32be (.bytes [0x12, 0x34, 0xAB, 0xCD])).wf 1 = true ∧
    (Line.word 0xFFFFFFFFF).wf 1 = true := by decide

/-! ## Decoding: words written out from the encodings (V10 to V14, V16) -/

theorem test_decode_enc16be : decoded 0x10000FF00#36 = some (.enc16be 0xFF00) := by decide
theorem test_decode_dec16be : decoded 0x200003412#36 = some (.dec16be 0x12 0x34) := by decide
theorem test_decode_enc32be : decoded 0x3DEADBEEF#36 = some (.enc32be 0xDEADBEEF) := by decide
theorem test_decode_dec32be :
    decoded 0x478563412#36 = some (.dec32be 0x12 0x34 0x56 0x78) := by decide
theorem test_decode_enc16le : decoded 0x50000C8C5#36 = some (.enc16le 0xC8C5) := by decide
theorem test_decode_crcInit : decoded 0x800000000#36 = some .crcInit := by decide
theorem test_decode_crcUpd : decoded 0x9000000FF#36 = some (.crcUpd 0xFF) := by decide
theorem test_decode_crcRd : decoded 0xA00000000#36 = some .crcRd := by decide
theorem test_decode_reserved_opcodes :
    decoded 0x000000000#36 = none ∧ decoded 0x6DEADBEEF#36 = none ∧
    decoded 0x700000000#36 = none ∧ decoded 0xB00000000#36 = none ∧
    decoded 0xFFFFFFFFF#36 = none := by decide
theorem test_decode_reserved_bits :
    decoded 0x100010000#36 = none ∧ decoded 0x2FFFFFFFF#36 = none ∧
    decoded 0x5C8C50000#36 = none ∧ decoded 0x800000001#36 = none ∧
    decoded 0x900000100#36 = none ∧ decoded 0xA00000001#36 = none := by decide
theorem test_encode_dec32be : encode (.dec32be 0x12 0x34 0xAB 0xCD) = 0x4CDAB3412#36 := by decide
theorem test_decodeTableWord :
    decodeTableWord 40 0x100001234 = some (.enc16be 0x1234) ∧
    decodeTableWord 40 0x1100001234 = none ∧ decodeTableWord 36 0xA00000000 = some .crcRd := by
  decide

/-! ## The commands (V10 to V14; R50 to R54, R59 to R61) -/

theorem test_enc16be : seen (exec (.enc16be 0x1234) (regs 0xABCD true)) =
    some (0xABCD, true, okWith 0x00003412) := by decide
theorem test_enc16be_high_byte : seen (exec (.enc16be 0xFF00) (regs 0xFFFF false)) =
    some (0xFFFF, false, okWith 0x000000FF) := by decide
theorem test_dec16be : seen (exec (.dec16be 0xAB 0xCD) (regs 0xFFFF false)) =
    some (0xFFFF, false, okWith 0x0000ABCD) := by decide
theorem test_dec16be_unsigned : seen (exec (.dec16be 0x80 0x00) (regs 0xFFFF false)) =
    some (0xFFFF, false, okWith 0x00008000) := by decide
theorem test_enc32be : seen (exec (.enc32be 0x12345678) (regs 0x2140 true)) =
    some (0x2140, true, okWith 0x78563412) := by decide
theorem test_enc32be_low_half : seen (exec (.enc32be 0x0000FFFF) (regs 0xFFFF false)) =
    some (0xFFFF, false, okWith 0xFFFF0000) := by decide
theorem test_dec32be : seen (exec (.dec32be 0x12 0x34 0xAB 0xCD) (regs 0 false)) =
    some (0, false, okWith 0x1234ABCD) := by decide
theorem test_dec32be_one : seen (exec (.dec32be 0 0 0 1) (regs 0 false)) =
    some (0, false, okWith 0x00000001) := by decide
theorem test_enc16le : seen (exec (.enc16le 0xC8C5) (regs 0xC8C5 false)) =
    some (0xC8C5, false, okWith 0x0000C8C5) := by decide
theorem test_crcInit : seen (exec .crcInit (regs 0x1234 true)) =
    some (0xFFFF, true, okNone) := by decide
theorem test_crcUpd : seen (exec (.crcUpd 0x03) (regs 0x807E false)) =
    some (0x2140, false, okNone) := by decide
theorem test_crcUpd_top_bit : seen (exec (.crcUpd 0x00) (regs 0x8000 true)) =
    some (0x0080, true, okNone) := by decide
theorem test_crcRd : seen (exec .crcRd (regs 0x1234 true)) =
    some (0x1234, true, okWith 0x00001234) := by decide

/-! ## The algorithm (V1 to V4, V6) -/

theorem test_crcStep : (crcStep 0xA001, crcStep 0x8000, crcStep 0xFFFF) =
    (0xF001#16, 0x4000#16, 0xDFFE#16) := by decide
theorem test_compute_frame : compute [0x01, 0x03, 0x00, 0x00, 0x00, 0x06] = 0xC8C5#16 := by decide +kernel
theorem test_compute_order :
    (compute [0x40, 0xBF], compute [0xBF, 0x40]) = (0xC071#16, 0x7070#16) := by decide +kernel
theorem test_compute_check_input :
    compute [0x31, 0x32, 0x33, 0x34, 0x35, 0x36, 0x37, 0x38, 0x39] = 0x4B37#16 := by decide +kernel

/-! ## The step, the fault and reset (V17, P5) -/

theorem test_step_illegal_word : seen (step (regsWith 0x1234 false [.command 0x000000000])) =
    some (0x1234, true, illegal) := by decide
theorem test_step_illegal_again : seen (step (regsWith 0x1234 true [.command 0x700000000])) =
    some (0x1234, true, illegal) := by decide
theorem test_step_upd_bit8_not_absorbed :
    seen (step (regsWith 0x807E false [.command 0x900000103])) =
      some (0x807E, true, illegal) := by decide
theorem test_step_init_keeps_err : seen (step (regsWith 0x1234 true [.command 0x800000000])) =
    some (0xFFFF, true, okNone) := by decide
theorem test_step_reset : seen (step (regsWith 0x1234 true [.reset (some 0x900000001)])) =
    some (0xFFFF, false, none) := by decide
theorem test_first_step_after_reset :
    seen (step (State.reset.withFetchWord 40 0x9000000FF)) = some (0x00FF, false, okNone) := by
  decide

/-! ## The listing (R45, R87) -/

theorem test_forward_none_refused :
    refusalOf (runListing [.command .crcInit .none, .command .enc16le (.response 1)]
      State.reset) = some .forwardsNoResponse := by decide
theorem test_ill_formed_line_refused :
    refusalOf (runListing [.command .crcUpd (.number 0x103)] State.reset) =
      some .illFormedLine := by decide
theorem test_trailer :
    seen (runListing (trailerLines 1) (regs 0xC8C5 false)) =
      some (0xC8C5, false, okWith 0x0000C8C5) := by decide

/-! ## Witnesses: hypotheses of the obligations, met together -/

theorem witness_CodecPairsAgreeOnTheWires : (0x00003412#32).extractLsb' 16 16 = 0 := by decide

theorem witness_CodecCommandsArePure : (Instr.dec32be 1 2 3 4).mnemonic ∈
    [Mnemonic.enc16be, .dec16be, .enc32be, .dec32be, .enc16le] := by decide

theorem witness_DecodeAndEncodeAgree : decode 0x900000001#36 = .ok (.crcUpd 0x01) := rfl

theorem witness_ReservedOperationCodes :
    (0xF#4) ∈ ([0x0, 0x6, 0x7, 0xB, 0xC, 0xD, 0xE, 0xF] : List OpCode) := by decide

theorem witness_ReservedDataBits :
    2 ^ Mnemonic.enc16be.format.payloadBits ≤ (0x00010000#32).toNat ∧
    2 ^ Mnemonic.crcUpd.format.payloadBits ≤ (0x00000100#32).toNat ∧
    2 ^ Mnemonic.crcRd.format.payloadBits ≤ (0x00000001#32).toNat := by decide

theorem witness_StepRunsTheDecodedCommand :
    (regsWith 0xFFFF false [.command 0x900000001]).pending = .command 0x900000001#36 :: [] ∧
    decode 0x900000001#36 = .ok (.crcUpd 0x01) := ⟨rfl, rfl⟩

theorem witness_IllegalCommand_illegal :
    (regsWith 0xFFFF false [.command 0x900000100]).pending = .command 0x900000100#36 :: [] ∧
    legal 0x900000100#36 = false := by decide

theorem witness_IllegalCommand_legal :
    (regsWith 0xFFFF false [.command 0x9000000FF]).pending = .command 0x9000000FF#36 :: [] ∧
    legal 0x9000000FF#36 = true := by decide

theorem witness_ResetGivesTheResetValues :
    (regsWith 0x1234 true [.reset none, .command 0]).pending =
      .reset none :: [.command 0] := by decide

theorem witness_IdleBlock : (regs 0x1234 true).pending = [] := by decide

theorem witness_LegalCommandsNeverFault : legal 0x3FFFFFFFF#36 = true := by decide

theorem witness_OnlyResetClearsErr :
    ∃ t, step (regsWith 0x1234 true [.reset none]) = .next t ∧
      (regsWith 0x1234 true [.reset none]).err = true ∧ t.err = false :=
  ⟨_, rfl, rfl, rfl⟩

theorem witness_OnlyCrcCommands_command :
    ∃ t, step (regsWith 0xFFFF false [.command 0x900000001]) = .next t ∧
      t.crc ≠ (regsWith 0xFFFF false [.command 0x900000001]).crc :=
  ⟨_, rfl, by decide⟩

theorem witness_OnlyCrcCommands_reset :
    ∃ t, step (regsWith 0x1234 false [.reset none]) = .next t ∧
      t.crc ≠ (regsWith 0x1234 false [.reset none]).crc :=
  ⟨_, rfl, by decide⟩

theorem witness_OnlyUpdAndRdReadCrc :
    decode 0x800000000#36 ≠ .ok .crcRd ∧ ∀ b, decode 0x800000000#36 ≠ .ok (.crcUpd b) := by
  have h : decode 0x800000000#36 = .ok .crcInit := rfl
  simp [h]

theorem witness_AllButUpdAreIdempotent :
    (∀ b, Instr.crcInit ≠ .crcUpd b) ∧
    ∃ t u, exec .crcInit (regs 0x1234 true) = .next t ∧ exec .crcInit t = .next u :=
  ⟨by simp, _, _, rfl, rfl⟩

theorem witness_StepKeepsThePortInvariant :
    PortInvariant (regsWith 0xFFFF false [.command 0x900000001]) ∧
    ∃ t, step (regsWith 0xFFFF false [.command 0x900000001]) = .next t := by
  refine ⟨⟨rfl, ?_, rfl⟩, _, rfl⟩
  simp [regsWith, regs, IllegalSinceReset]

theorem witness_ClearErr : CommandsOnly [.command 0x900000001, .command 0x000000000] ∧
    (regs 0xFFFF false).err = false := by decide

theorem witness_InterleavedCommands :
    CommandsOnly [.command 0x800000000, .command 0x312345678, .command 0x900000003,
      .command 0x900000103] ∧
    crcWrites [.command 0x800000000, .command 0x312345678, .command 0x900000003,
      .command 0x900000103] = .seed :: [0x03#8].map .absorb := by decide

theorem witness_Forwarding_response :
    (Line.command .enc16le (.response 1)).wf 2 = true ∧
    responseOfLine 0 { regs 0xC8C5 false with completions := [⟨some 0xC8C5, .ok⟩] } 1 =
      some 0xC8C5#32 := by decide

theorem witness_Forwarding_none :
    (Line.command .enc16le (.response 1)).wf 2 = true ∧
    responseOfLine 0 { regs 0xFFFF false with completions := [⟨none, .ok⟩] } 1 = none := by
  decide

end Sys2Proof.Tests
end

section

namespace Sys2Proof.Machine

/-- The step with a command word next: the block accepts that word once the move has passed to
the moves made (00_scope.md R9, R10). -/
theorem step_command {s : State} {w : CommandWord} {rest : List HostMove}
    (h : s.pending = .command w :: rest) :
    step s = acceptWord w (s.take (.command w) rest) :=
  step_cons h

/-- Settles O26: the step accepts the word, and accepting a word that decodes is `exec`. -/
theorem stepRunsTheDecodedCommand : Obligations.StepRunsTheDecodedCommand := by
  intro s w rest i hnext hdecode
  calc step s = acceptWord w (s.take (.command w) rest) := step_command hnext
    _ = exec i (s.take (.command w) rest) := acceptWord_of_ok hdecode _

end Sys2Proof.Machine
end

section
/-! The inversion of a step: what it can answer, with the next state written by the operations of
the state, so that a rule about every step is a case split over it. -/

namespace Sys2Proof.Machine

/-- The step with a reset next (70_reset_and_hazards.md R79). -/
theorem step_reset {s : State} {lost : Option CommandWord} {rest : List HostMove}
    (h : s.pending = .reset lost :: rest) :
    step s = .next (s.take (.reset lost) rest).applyReset :=
  step_cons h

/-- A word that decodes: the state `exec_eq` gives. -/
theorem acceptWord_eq_of_ok {w : CommandWord} {i : Instr} (h : decode w = .ok i) (s : State) :
    acceptWord w s =
      .next ((s.writeCrc (crcAfter s.crc i)).complete (responseOf s.crc i) .ok) :=
  (acceptWord_of_ok h s).trans (exec_eq i s)

/-- The next states a step can answer, one case for each kind of move (`step_cases`). -/
theorem step_next_cases {s t : State} (h : step s = .next t) :
    t = s ∨
    (∃ lost rest, s.pending = .reset lost :: rest ∧ t = (s.take (.reset lost) rest).applyReset) ∨
    (∃ w rest i, s.pending = .command w :: rest ∧ decode w = .ok i ∧
      t = ((s.take (.command w) rest).writeCrc (crcAfter s.crc i)).complete
        (responseOf s.crc i) .ok) ∨
    (∃ w rest e, s.pending = .command w :: rest ∧ decode w = .error e ∧
      t = (s.take (.command w) rest).raiseIllegalCommand) := by
  rcases step_cases s with ⟨-, hstep⟩ | ⟨lost, rest, hnext, hstep⟩ |
    ⟨w, rest, i, hnext, hdecode, hstep⟩ | ⟨w, rest, e, hnext, hdecode, hstep⟩
  · exact .inl (Host.Outcome.next.inj (h.symm.trans hstep))
  · exact .inr (.inl ⟨lost, rest, hnext, Host.Outcome.next.inj (h.symm.trans hstep)⟩)
  · exact .inr (.inr (.inl ⟨w, rest, i, hnext, hdecode,
      Host.Outcome.next.inj (h.symm.trans (hstep.trans (exec_eq i _)))⟩))
  · exact .inr (.inr (.inr ⟨w, rest, e, hnext, hdecode,
      Host.Outcome.next.inj (h.symm.trans hstep)⟩))

/-- Only `CRC.INIT` and `CRC.UPD` leave another value in `CRC` (10_state.md R16). -/
theorem writer_of_crcAfter_ne {v : Half} {i : Instr} (h : crcAfter v i ≠ v) :
    i = .crcInit ∨ ∃ b, i = .crcUpd b := by
  cases i with
  | crcInit => exact .inl rfl
  | crcUpd b => exact .inr ⟨b, rfl⟩
  | _ => exact absurd rfl h

/-- A command other than `CRC.UPD` leaves one value whatever `CRC` held, or leaves what it held. -/
theorem crcAfter_const_or_id {i : Instr} (h : ∀ b, i ≠ .crcUpd b) (u v : Half) :
    crcAfter u i = crcAfter v i ∨ (crcAfter v i = v ∧ crcAfter u i = u) := by
  cases i with
  | crcInit => exact .inl rfl
  | crcUpd b => exact absurd rfl (h b)
  | _ => exact .inr ⟨rfl, rfl⟩

/-- Only `CRC.RD` responds what `CRC` holds (10_state.md R16). -/
theorem responseOf_eq_of_ne_crcRd {i : Instr} (h : i ≠ .crcRd) (u v : Half) :
    responseOf u i = responseOf v i := by
  cases i with
  | crcRd => exact absurd rfl h
  | _ => rfl

end Sys2Proof.Machine
end

section
/-! What one more move adds to the host's record of the moves made, as `PortInvariant` reads it. -/

namespace Sys2Proof.Safety

open Sys2Proof.Machine

/-- A word that decodes is legal. -/
theorem legal_of_ok {w : CommandWord} {i : Instr} (h : decode w = .ok i) : legal w = true :=
  (legal_iff w).mpr ⟨i, h⟩

/-- A word that does not decode is not legal. -/
theorem not_legal_of_error {w : CommandWord} {e : IllegalWord} (h : decode w = .error e) :
    legal w = false :=
  (not_legal_iff w).mpr ⟨e, h⟩

theorem outcomeOfWord_of_ok {w : CommandWord} {i : Instr} (h : decode w = .ok i) :
    outcomeOfWord w = .ok := by
  simp [outcomeOfWord, legal_of_ok h]

theorem outcomeOfWord_of_error {w : CommandWord} {e : IllegalWord} (h : decode w = .error e) :
    outcomeOfWord w = .fault .illegalCommand := by
  simp [outcomeOfWord, not_legal_of_error h]

@[simp] theorem absorbed_concat (ms : List HostMove) (m : HostMove) :
    absorbed (ms ++ [m]) = absorbMove (absorbed ms) m := by
  simp [absorbed]

@[simp] theorem absorbMove_reset (s : List Byte) (lost : Option CommandWord) :
    absorbMove s (.reset lost) = [] := rfl

/-- A word that spells no operation is not absorbed (60_exceptions.md R66). -/
theorem absorbMove_of_error {w : CommandWord} {e : IllegalWord} (h : decode w = .error e)
    (s : List Byte) : absorbMove s (.command w) = s := by
  simp [absorbMove, crcWriteOf, h]

/-- One more byte is absorbed last (41_crc.md R58, R63). -/
theorem compute_concat (s : List Byte) (b : Byte) : compute (s ++ [b]) = crcByte (compute s) b :=
  crcBytes_append Config.seed s [b]

/-- What a legal word does to the absorbed bytes and what its command does to `CRC` agree
(41_crc.md R63). -/
theorem compute_absorbMove_of_ok {w : CommandWord} {i : Instr} (h : decode w = .ok i)
    (s : List Byte) : compute (absorbMove s (.command w)) = crcAfter (compute s) i := by
  cases i with
  | crcUpd b =>
    have habsorb : absorbMove s (.command w) = s ++ [b] := by simp [absorbMove, crcWriteOf, h]
    rw [habsorb, compute_concat]
    rfl
  | crcInit =>
    have hseed : absorbMove s (.command w) = [] := by simp [absorbMove, crcWriteOf, h]
    rw [hseed]
    rfl
  | _ =>
    have hkeep : absorbMove s (.command w) = s := by simp [absorbMove, crcWriteOf, h]
    rw [hkeep]
    rfl

theorem not_illegalSinceReset_nil : ¬ IllegalSinceReset [] := by
  simp [IllegalSinceReset]

/-- One more move: it is an illegal word itself, or it is no reset and an illegal word came before
(10_state.md R17). -/
theorem illegalSinceReset_concat (ms : List HostMove) (m : HostMove) :
    IllegalSinceReset (ms ++ [m]) ↔
      (∃ w, m = .command w ∧ legal w = false) ∨
      (IllegalSinceReset ms ∧ ∀ lost, m ≠ .reset lost) := by
  constructor
  · rintro ⟨before, w, after, hms, hillegal, hafter⟩
    rcases List.eq_nil_or_concat' after with rfl | ⟨init, last, rfl⟩
    · obtain ⟨-, hm⟩ := List.append_inj' hms rfl
      exact .inl ⟨w, List.singleton_inj.mp hm, hillegal⟩
    · have hms' : ms ++ [m] = (before ++ .command w :: init) ++ [last] := by simpa using hms
      obtain ⟨hinit, hm⟩ := List.append_inj' hms' rfl
      obtain rfl := List.singleton_inj.mp hm
      exact .inr ⟨⟨before, w, init, hinit, hillegal,
        fun lost hmem => hafter lost (List.mem_append_left _ hmem)⟩,
        fun lost hm => hafter lost (by simp [hm])⟩
  · rintro (⟨w, rfl, hillegal⟩ | ⟨⟨before, w, after, rfl, hillegal, hafter⟩, hm⟩)
    · exact ⟨ms, w, [], rfl, hillegal, by simp⟩
    · refine ⟨before, w, after ++ [m], by simp, hillegal, fun lost hmem => ?_⟩
      rcases List.mem_append.mp hmem with hmem | hmem
      · exact hafter lost hmem
      · exact hm lost (List.mem_singleton.mp hmem).symm

/-- A reset forgets the illegal words before it. -/
theorem not_illegalSinceReset_concat_reset (ms : List HostMove) (lost : Option CommandWord) :
    ¬ IllegalSinceReset (ms ++ [.reset lost]) := by
  simp [illegalSinceReset_concat]

/-- A command forgets nothing. -/
theorem illegalSinceReset_concat_command (ms : List HostMove) (w : CommandWord) :
    IllegalSinceReset (ms ++ [.command w]) ↔ legal w = false ∨ IllegalSinceReset ms := by
  simp [illegalSinceReset_concat]

/-! The invariant is kept by each kind of move. -/

variable {s : State} {w : CommandWord} (rest : List HostMove)

theorem portInvariant_applyReset (h : PortInvariant s) (lost : Option CommandWord) :
    PortInvariant (s.take (.reset lost) rest).applyReset where
  crc_eq := by simp
  err_iff := by simp [not_illegalSinceReset_concat_reset]
  outcomes_eq := by simp [commandOf, h.outcomes_eq]

theorem portInvariant_legal (h : PortInvariant s) {i : Instr} (hdecode : decode w = .ok i) :
    PortInvariant (((s.take (.command w) rest).writeCrc (crcAfter s.crc i)).complete
      (responseOf s.crc i) .ok) where
  crc_eq := by simp [compute_absorbMove_of_ok hdecode, h.crc_eq]
  err_iff := by simp [illegalSinceReset_concat_command, legal_of_ok hdecode, h.err_iff]
  outcomes_eq := by simp [commandOf, outcomeOfWord_of_ok hdecode, h.outcomes_eq]

theorem portInvariant_raiseIllegalCommand (h : PortInvariant s) {e : IllegalWord}
    (hdecode : decode w = .error e) :
    PortInvariant (s.take (.command w) rest).raiseIllegalCommand where
  crc_eq := by simp [absorbMove_of_error hdecode, h.crc_eq]
  err_iff := by simp [illegalSinceReset_concat_command, not_legal_of_error hdecode]
  outcomes_eq := by simp [commandOf, outcomeOfWord_of_error hdecode, h.outcomes_eq]

/-- Settles O37: each kind of move keeps the invariant, and an idle step answers the same state. -/
theorem stepKeepsThePortInvariant : Obligations.StepKeepsThePortInvariant := by
  intro s t hinv hstep
  rcases Machine.step_next_cases hstep with rfl | ⟨lost, rest, -, rfl⟩ |
    ⟨w, rest, i, -, hdecode, rfl⟩ | ⟨w, rest, e, -, hdecode, rfl⟩
  · exact hinv
  · exact portInvariant_applyReset rest hinv lost
  · exact portInvariant_legal rest hinv hdecode
  · exact portInvariant_raiseIllegalCommand rest hinv hdecode

/-- Settles O38: no move is made and nothing completed, and `CRC` is the seed. -/
theorem resetMeetsThePortInvariant : Obligations.ResetMeetsThePortInvariant where
  crc_eq := rfl
  err_iff := by simp [not_illegalSinceReset_nil]
  outcomes_eq := rfl

end Sys2Proof.Safety
end

section
/-! Who writes `CRC` and `ERR` and who reads them (10_state.md R16, R17, R24). -/

namespace Sys2Proof.Machine

/-- Settles O33: every other step keeps `ERR` or sets it. -/
theorem onlyResetClearsErr : Obligations.OnlyResetClearsErr := by
  intro s t hstep hset hclear
  rcases step_next_cases hstep with rfl | ⟨lost, rest, hnext, -⟩ |
    ⟨w, rest, i, -, -, rfl⟩ | ⟨w, rest, e, -, -, rfl⟩
  · simp [hset] at hclear
  · exact ⟨lost, rest, hnext⟩
  · simp [hset] at hclear
  · simp at hclear

/-- Settles O34: an idle step and an illegal word keep `CRC`, and `crcAfter` says which commands
can change it. -/
theorem onlyCrcCommandsAndResetWriteCrc : Obligations.OnlyCrcCommandsAndResetWriteCrc := by
  intro s t hstep hchange
  rcases step_next_cases hstep with rfl | ⟨lost, rest, hnext, -⟩ |
    ⟨w, rest, i, hnext, hdecode, rfl⟩ | ⟨w, rest, e, -, -, rfl⟩
  · exact absurd rfl hchange
  · exact .inl ⟨lost, rest, hnext⟩
  · have hwriter : i = .crcInit ∨ ∃ b, i = .crcUpd b := writer_of_crcAfter_ne hchange
    refine .inr ⟨w, rest, hnext, ?_⟩
    rcases hwriter with rfl | ⟨b, rfl⟩
    · exact .inl hdecode
    · exact .inr ⟨b, hdecode⟩
  · exact absurd rfl hchange

/-- Settles O35: an illegal word keeps `CRC` unread; a legal one other than the two gives the same
response from both values, and leaves one value or each its own. -/
theorem onlyUpdAndRdReadCrc : Obligations.OnlyUpdAndRdReadCrc := by
  intro w hnotRd hnotUpd s v
  cases hdecode : decode w with
  | error e =>
    exact ⟨_, _, acceptWord_of_error hdecode s, acceptWord_of_error hdecode _, rfl,
      .inr ⟨rfl, rfl⟩⟩
  | ok i =>
    have hresponse : responseOf v i = responseOf s.crc i :=
      responseOf_eq_of_ne_crcRd (fun h => hnotRd (h ▸ hdecode)) v s.crc
    refine ⟨_, _, acceptWord_eq_of_ok hdecode s, acceptWord_eq_of_ok hdecode _, ?_,
      crcAfter_const_or_id (fun b h => hnotUpd b (h ▸ hdecode)) v s.crc⟩
    simp [State.complete, State.writeCrc, hresponse]

/-- One step does not read `ERR`: from two states that differ in it alone, the next states differ
in it at most (10_state.md R17). -/
theorem step_err_irrelevant (s : State) (e : Bool) :
    ∃ t e', step s = .next t ∧ step { s with err := e } = .next { t with err := e' } := by
  have hnext' : ({ s with err := e } : State).pending = s.pending := rfl
  rcases step_cases s with ⟨hnext, hstep⟩ | ⟨lost, rest, hnext, hstep⟩ |
    ⟨w, rest, i, hnext, hdecode, hstep⟩ | ⟨w, rest, _, hnext, hdecode, hstep⟩
  · exact ⟨s, e, hstep, step_nil (hnext'.trans hnext)⟩
  · exact ⟨_, false, hstep, step_reset (hnext'.trans hnext)⟩
  · exact ⟨_, e, hstep.trans (exec_eq i _),
      (step_command (hnext'.trans hnext)).trans (acceptWord_eq_of_ok hdecode _)⟩
  · exact ⟨_, true, hstep,
      (step_command (hnext'.trans hnext)).trans (acceptWord_of_error hdecode _)⟩

/-- Settles O41, by induction on the number of steps (`step_err_irrelevant`). -/
theorem errHasNoInfluence : Obligations.ErrHasNoInfluence := by
  intro k
  induction k with
  | zero => exact fun s e => ⟨s, e, rfl, rfl⟩
  | succ k ih =>
    intro s e
    obtain ⟨s', e', hstep, hstep'⟩ := step_err_irrelevant s e
    obtain ⟨t, e'', hrun, hrun'⟩ := ih s' e'
    exact ⟨t, e'', (run_succ_of_next k hstep).trans hrun, (run_succ_of_next k hstep').trans hrun'⟩

/-- Settles O29: the reset step writes the reset values and keeps the moves still to come. -/
theorem resetGivesTheResetValues : Obligations.ResetGivesTheResetValues :=
  ⟨⟨State.reset_crc, State.reset_err⟩, fun _ _ _ hnext =>
    ⟨_, step_reset hnext, State.applyReset_crc _, State.applyReset_err _, rfl⟩⟩

end Sys2Proof.Machine
end

section
/-! A run of `CRC.UPD` commands, and that two of them reach every value of `CRC`. In eight
iterations the high byte of the register only moves down, so two bytes absorbed one after the other
are 16 bits XORed into the register before 16 iterations, and every iteration is onto
(41_crc.md R58, R65). -/

namespace Sys2Proof.Machine

/-- Shifting up by one loses nothing when the top bit is clear. -/
theorem shiftRight_shiftLeft_one {x : Half} (h : x.getLsbD 15 = false) : (x <<< 1) >>> 1 = x := by
  apply BitVec.eq_of_getLsbD_eq
  intro i hi
  by_cases htop : i = 15
  · simpa [htop] using h.symm
  · simp [BitVec.getLsbD_eq_getElem, hi, show 1 + i < 16 by omega]

/-- An XOR above the low bit passes through an iteration and moves down by one. -/
theorem crcStep_xor_shiftLeft (v : Half) {x : Half} (h : x.getLsbD 15 = false) :
    crcStep (v ^^^ x <<< 1) = crcStep v ^^^ x := by
  have hlow : (v ^^^ x <<< 1).getLsbD 0 = v.getLsbD 0 := by simp
  rw [crcStep_eq, crcStep_eq, hlow, BitVec.ushiftRight_xor_distrib, shiftRight_shiftLeft_one h]
  ac_rfl

/-- Every value is the result of an iteration: the top bit says whether the constant was XORed. -/
theorem crcStep_surjective : Function.Surjective crcStep := by
  intro v
  cases htop : v.getLsbD 15 with
  | false =>
    refine ⟨0#16 ^^^ v <<< 1, ?_⟩
    rw [crcStep_xor_shiftLeft 0#16 htop, show crcStep 0#16 = 0#16 by decide, BitVec.zero_xor]
  | true =>
    have hclear : (v ^^^ Config.poly).getLsbD 15 = false := by simp [htop, Config.poly]
    refine ⟨1#16 ^^^ (v ^^^ Config.poly) <<< 1, ?_⟩
    rw [crcStep_xor_shiftLeft 1#16 hclear, show crcStep 1#16 = Config.poly by decide, BitVec.xor_comm v,
      ← BitVec.xor_assoc, BitVec.xor_self, BitVec.zero_xor]

theorem crcIterate_surjective (n : Nat) : Function.Surjective (crcIterate n) := by
  induction n with
  | zero => exact Function.surjective_id
  | succ n ih => exact ih.comp crcStep_surjective

/-- An XOR above the low `n` bits passes through `n` iterations and moves down by `n`. -/
theorem crcIterate_xor_shiftLeft (n : Nat) (v : Half) {x : Half}
    (h : ∀ i, 16 ≤ i + n → x.getLsbD i = false) :
    crcIterate n (v ^^^ x <<< n) = crcIterate n v ^^^ x := by
  induction n generalizing v with
  | zero => simp [crcIterate]
  | succ n ih =>
    have htop : (x <<< n).getLsbD 15 = false := by
      simp only [BitVec.getLsbD_shiftLeft, h (15 - n) (by omega), Bool.and_false]
    calc crcIterate (n + 1) (v ^^^ x <<< (n + 1))
        = crcIterate n (crcStep (v ^^^ (x <<< n) <<< 1)) := by
          rw [BitVec.shiftLeft_add]; rfl
      _ = crcIterate n (crcStep v ^^^ x <<< n) := by rw [crcStep_xor_shiftLeft v htop]
      _ = crcIterate (n + 1) v ^^^ x := ih (crcStep v) fun i hi => h i (by omega)

/-- The byte XORed in after eight iterations could have been XORed into the high byte before. -/
theorem crcIterate_iter_xor_highByte (v : Half) (b : Byte) :
    crcIterate Config.iter (v ^^^ b.zeroExtend 16 <<< 8) =
      crcIterate Config.iter v ^^^ b.zeroExtend 16 :=
  crcIterate_xor_shiftLeft 8 v fun i hi => by
    simp [BitVec.getLsbD_of_ge b i (by omega)]

/-- A 16-bit value is its two bytes. -/
theorem xor_bytes (v : Half) :
    (v.extractLsb' 0 8).zeroExtend 16 ^^^ (v.extractLsb' 8 8).zeroExtend 16 <<< 8 = v := by
  apply BitVec.eq_of_getLsbD_eq
  intro i hi
  by_cases hlow : i < 8
  · simp [hlow, hi]
  · simp [hlow, hi, show i - 8 < 8 by omega,
      show 8 + (i - 8) = i by omega]

/-- From every value, two bytes reach every value. -/
theorem exists_two_bytes_reach (u v : Half) : ∃ b0 b1 : Byte, crcBytes u [b0, b1] = v := by
  obtain ⟨y, hy⟩ := crcIterate_surjective Config.iter v
  obtain ⟨x, hx⟩ := crcIterate_surjective Config.iter y
  refine ⟨(u ^^^ x).extractLsb' 0 8, (u ^^^ x).extractLsb' 8 8, ?_⟩
  have hmerge : u ^^^ ((u ^^^ x).extractLsb' 0 8).zeroExtend 16 ^^^
      ((u ^^^ x).extractLsb' 8 8).zeroExtend 16 <<< 8 = x := by
    rw [BitVec.xor_assoc, xor_bytes, ← BitVec.xor_assoc, BitVec.xor_self, BitVec.zero_xor]
  rw [crcBytes_cons, crcBytes_cons, crcBytes_nil, crcByte, crcByte,
    ← crcIterate_iter_xor_highByte, hmerge, hx, hy]

/-- The word of `CRC.UPD b` decodes to it: the data bits above the byte are zero. -/
theorem decode_encode_crcUpd (b : Byte) : decode (encode (.crcUpd b)) = .ok (.crcUpd b) := by
  have hreserved : (b.zeroExtend 32).extractLsb' 8 24 = 0 := by
    apply BitVec.eq_of_getLsbD_eq
    intro i hi
    simp
  have hbyte : (b.zeroExtend 32).extractLsb' 0 8 = b := by
    apply BitVec.eq_of_getLsbD_eq
    intro i hi
    simp [hi, show i < 32 by omega]
  calc decode (encode (.crcUpd b)) = decodeFields 0x9#4 (b.zeroExtend 32) :=
        decode_commandWord _ _
    _ = .ok (.crcUpd b) := ifReservedZero_eq_ok.mpr ⟨beq_iff_eq.mpr hreserved, by rw [hbyte]⟩

/-- The host moves that present one `CRC.UPD` for each byte, as `computeMoves` has them. -/
def updMoves (bytes : List Byte) : List HostMove :=
  bytes.map fun b => .command (encode (.crcUpd b))

theorem updMoves_commandsOnly (bytes : List Byte) : Safety.CommandsOnly (updMoves bytes) := by
  simp [updMoves, Safety.CommandsOnly, Safety.commandOf]

/-- A run of `CRC.UPD` commands absorbs their bytes and each completes without a response, from
every state and whatever moves follow (41_crc.md R60, R63). -/
theorem run_updMoves (bytes : List Byte) (rest : List HostMove) (s : State) :
    Sys2Proof.core.run bytes.length { s with pending := updMoves bytes ++ rest } =
      .next { s with
        crc := crcBytes s.crc bytes
        pending := rest
        history := s.history ++ updMoves bytes
        completions := s.completions ++ List.replicate bytes.length ⟨none, .ok⟩ } := by
  induction bytes generalizing s with
  | nil => simp [run_zero, updMoves]
  | cons b bytes ih =>
    have hstep : step { s with pending := updMoves (b :: bytes) ++ rest } =
        .next { s with
          crc := crcByte s.crc b
          pending := updMoves bytes ++ rest
          history := s.history ++ [.command (encode (.crcUpd b))]
          completions := s.completions ++ [⟨none, .ok⟩] } :=
      (step_command rfl).trans (acceptWord_of_ok (decode_encode_crcUpd b) _)
    have hrest := ih { s with
      crc := crcByte s.crc b
      history := s.history ++ [.command (encode (.crcUpd b))]
      completions := s.completions ++ [⟨none, .ok⟩] }
    refine (run_succ_of_next bytes.length hstep).trans (hrest.trans ?_)
    simp [updMoves, List.replicate_succ]

/-- Settles O47: two `CRC.UPD` commands reach the value from the seed. -/
theorem everyCrcValueIsReachable : Obligations.EveryCrcValueIsReachable := by
  intro v
  obtain ⟨b0, b1, hreach⟩ := exists_two_bytes_reach Config.seed v
  have hrun := run_updMoves [b0, b1] [] State.reset
  rw [List.append_nil] at hrun
  exact ⟨updMoves [b0, b1], _, updMoves_commandsOnly _, hrun, hreach, rfl⟩

end Sys2Proof.Machine
end

section
/-! How the buses carry sequences and numbers (20_memory.md R25). -/

namespace Sys2Proof.Machine

/-- Bit `i` of a bus that carries a 16-bit number. -/
theorem getLsbD_numberResponse (n : Half) (i : Nat) :
    (numberResponse n).getLsbD i = n.getLsbD i := by
  by_cases hi : i < 32
  · simp [numberResponse, hi]
  · simp [numberResponse, BitVec.getLsbD_of_ge n i (by omega)]

/-- A bus that carries two bytes carries the number whose low byte is the first of them. -/
theorem sequenceResponse_pair (b0 b1 : Byte) :
    sequenceResponse [b0, b1] = numberResponse (b1 ++ b0) := by
  apply BitVec.eq_of_getLsbD_eq
  intro i _
  rw [sequenceResponse, getLsbD_lanesOf, getLsbD_numberResponse, BitVec.getLsbD_append]
  by_cases hlow : i < 8
  · simp [hlow]
  by_cases hhigh : i < 16
  · simp [hlow, hhigh]
  · simp [hlow, hhigh, BitVec.getLsbD_of_ge b1 (i - 8) (by omega)]

/-- A 16-bit number is its high byte above its low byte. -/
theorem highByte_append_lowByte (n : Half) : n.extractLsb' 8 8 ++ n.extractLsb' 0 8 = n := by
  rw [BitVec.extractLsb'_append_extractLsb'_eq_extractLsb' (by rfl), BitVec.extractLsb'_eq_self]

/-- Settles O19: lane by lane (`lane_lanesOf`), bit by bit, and the two encodings as byte pairs
(`sequenceResponse_pair`). -/
theorem lanesCarrySequencesAndNumbers : Obligations.LanesCarrySequencesAndNumbers := by
  refine ⟨fun s k => lane_lanesOf s k.isLt, getLsbD_numberResponse, fun n => ?_,
    fun n => sequenceResponse_pair _ _⟩
  calc sequenceResponse (encodeU16Le n)
      = numberResponse (n.extractLsb' 8 8 ++ n.extractLsb' 0 8) := sequenceResponse_pair _ _
    _ = numberResponse n := congrArg numberResponse (highByte_append_lowByte n)

end Sys2Proof.Machine
end

section
/-! What a command does when it is issued twice (20_memory.md R31). -/

namespace Sys2Proof.Machine

/-- A command other than `CRC.UPD` leaves what it left before. -/
theorem crcAfter_crcAfter {i : Instr} (h : ∀ b, i ≠ .crcUpd b) (v : Half) :
    crcAfter (crcAfter v i) i = crcAfter v i :=
  (crcAfter_const_or_id h (crcAfter v i) v).elim id And.right

/-- A command responds the same once it has run: `CRC.RD`, the one that reads `CRC`, keeps it. -/
theorem responseOf_crcAfter (v : Half) (i : Instr) :
    responseOf (crcAfter v i) i = responseOf v i := by
  by_cases hread : i = .crcRd
  · rw [hread]; rfl
  · exact responseOf_eq_of_ne_crcRd hread _ _

/-- Settles O36: the second `CRC` and the second response are the first ones
(`crcAfter_crcAfter`, `responseOf_crcAfter`). -/
theorem allButUpdAreIdempotent : Obligations.AllButUpdAreIdempotent := by
  intro i s t u hnotUpd hfirst hsecond
  obtain rfl := Host.Outcome.next.inj ((exec_eq i s).symm.trans hfirst)
  obtain rfl := Host.Outcome.next.inj ((exec_eq i _).symm.trans hsecond)
  refine ⟨crcAfter_crcAfter hnotUpd s.crc, rfl, ?_⟩
  simp [responseOf_crcAfter]

end Sys2Proof.Machine
end

section
/-! The moves still to come are carried along and not read (20_memory.md R33). -/

namespace Sys2Proof.Machine

/-- A move has one effect whatever moves are still to come after it. -/
theorem step_later_irrelevant (s : State) (m : HostMove) :
    ∃ t : State, ∀ later,
      step { s with pending := m :: later } = .next { t with pending := later } := by
  cases m with
  | reset lost => exact ⟨(s.take (.reset lost) []).applyReset, fun _ => step_reset rfl⟩
  | command w =>
    cases hdecode : decode w with
    | ok i =>
      exact ⟨((s.take (.command w) []).writeCrc (crcAfter s.crc i)).complete
        (responseOf s.crc i) .ok,
        fun _ => (step_command rfl).trans (acceptWord_eq_of_ok hdecode _)⟩
    | error e =>
      exact ⟨(s.take (.command w) []).raiseIllegalCommand,
        fun _ => (step_command rfl).trans (acceptWord_of_error hdecode _)⟩

/-- A run over moves has one effect whatever moves follow them, by induction on the moves
(`step_later_irrelevant`). -/
theorem run_later_irrelevant (ms : List HostMove) (s : State) :
    ∃ t : State, ∀ later, Sys2Proof.core.run ms.length { s with pending := ms ++ later } =
      .next { t with pending := later } := by
  induction ms generalizing s with
  | nil => exact ⟨s, fun _ => run_zero _⟩
  | cons m ms ih =>
    obtain ⟨s', hstep⟩ := step_later_irrelevant s m
    obtain ⟨t, hrun⟩ := ih s'
    exact ⟨t, fun later =>
      (run_succ_of_next ms.length (hstep (ms ++ later))).trans (hrun later)⟩

/-- Settles O40: the run followed by no move and the run followed by `later`
(`run_later_irrelevant`). -/
theorem completionsIgnoreLaterMoves : Obligations.CompletionsIgnoreLaterMoves := by
  intro s ms later
  obtain ⟨t, hrun⟩ := run_later_irrelevant ms s
  have halone := hrun []
  rw [List.append_nil] at halone
  exact ⟨{ t with pending := [] }, halone, hrun later⟩

end Sys2Proof.Machine
end

section
/-! The decoder and the encoder row by row of the opcode map (30_encoding.md R38, R40, R42): the
operation code names the row, the row's format says which data bits are reserved, and the payload
is the operand. -/

namespace Sys2Proof

/-- The command of row `m` whose operand is `d` (30_encoding.md R39, second column). -/
def Mnemonic.commandOn : Mnemonic → Data → Instr
  | .enc16be, d => .enc16be (d.extractLsb' 0 16)
  | .dec16be, d => .dec16be (lane d 0) (lane d 1)
  | .enc32be, d => .enc32be d
  | .dec32be, d => .dec32be (lane d 0) (lane d 1) (lane d 2) (lane d 3)
  | .enc16le, d => .enc16le (d.extractLsb' 0 16)
  | .crcInit, _ => .crcInit
  | .crcUpd, d => .crcUpd (d.extractLsb' 0 8)
  | .crcRd, _ => .crcRd

@[simp] theorem Mnemonic.mnemonic_commandOn (m : Mnemonic) (d : Data) :
    (m.commandOn d).mnemonic = m := by
  cases m <;> rfl

/-! ### Numbers in the fields of a word -/

theorem toNat_append_eq_add {m n : Nat} (x : BitVec m) (y : BitVec n) :
    (x ++ y).toNat = 2 ^ n * x.toNat + y.toNat := by
  rw [BitVec.toNat_append, ← Nat.shiftLeft_add_eq_or_of_lt y.isLt, Nat.shiftLeft_eq, Nat.mul_comm]

theorem toNat_commandWord (op : OpCode) (d : Data) :
    (commandWord op d).toNat = 2 ^ 32 * op.toNat + d.toNat :=
  toNat_append_eq_add op d

theorem commandWord_inj {op op' : OpCode} {d d' : Data} :
    commandWord op d = commandWord op' d' ↔ op = op' ∧ d = d' := by
  refine ⟨fun h => ⟨?_, ?_⟩, fun ⟨hop, hd⟩ => by rw [hop, hd]⟩
  · simpa using congrArg opField h
  · simpa using congrArg dataField h

theorem toNat_lanesOf_four (b0 b1 b2 b3 : Byte) :
    (lanesOf [b0, b1, b2, b3]).toNat =
      b0.toNat + 256 * (b1.toNat + 256 * (b2.toNat + 256 * b3.toNat)) := by
  have h : (lanesOf [b0, b1, b2, b3]).toNat = (b3 ++ b2 ++ b1 ++ b0).toNat := rfl
  rw [h, toNat_append_eq_add, toNat_append_eq_add, toNat_append_eq_add]
  omega

/-- A bus is below `2 ^ k` exactly when its bits from `k` on are zero. -/
theorem extractLsb'_high_eq_zero_iff (d : Data) {k : Nat} (hk : k ≤ 32) :
    d.extractLsb' k (32 - k) = 0 ↔ d.toNat < 2 ^ k := by
  have hpow : 2 ^ 32 = 2 ^ k * 2 ^ (32 - k) := by rw [← Nat.pow_add, Nat.add_sub_cancel' hk]
  have hlt : d.toNat / 2 ^ k < 2 ^ (32 - k) := Nat.div_lt_of_lt_mul (hpow ▸ d.isLt)
  rw [BitVec.toNat_eq, BitVec.extractLsb'_toNat, Nat.shiftRight_eq_div_pow, Nat.mod_eq_of_lt hlt]
  simp [Nat.div_eq_zero_iff]

/-- A payload of `k` bits is carried zero-extended: it is read back unchanged. -/
theorem extractLsb'_zeroExtend {k : Nat} (hk : k ≤ 32) (n : BitVec k) :
    (n.zeroExtend 32).extractLsb' 0 k = n :=
  (BitVec.extractLsb'_setWidth_of_le (by omega)).trans BitVec.extractLsb'_eq_self

/-- A bus below `2 ^ k` is the zero-extension of its low `k` bits. -/
theorem zeroExtend_extractLsb' {d : Data} {k : Nat} (h : d.toNat < 2 ^ k) :
    (d.extractLsb' 0 k).zeroExtend 32 = d := by
  apply BitVec.eq_of_toNat_eq
  have hmod : d.toNat % 2 ^ k = d.toNat := Nat.mod_eq_of_lt h
  simpa [hmod] using d.isLt

/-- A bus below `2 ^ 16` is its two low lanes. -/
theorem lanesOf_two_lanes {d : Data} (h : d.toNat < 2 ^ 16) : lanesOf [lane d 0, lane d 1] = d := by
  have hlane : ∀ k, 2 ≤ k → lane d k = 0 := by
    intro k hk
    have hdiv : d.toNat >>> (8 * k) = 0 := by
      rw [Nat.shiftRight_eq_div_pow]
      exact Nat.div_eq_of_lt (h.trans_le (Nat.pow_le_pow_right (by decide) (by omega)))
    apply BitVec.eq_of_toNat_eq
    simp [lane, hdiv]
  calc lanesOf [lane d 0, lane d 1]
      = lanesOf [lane d 0, lane d 1, lane d 2, lane d 3] := by
        rw [hlane 2 (by decide), hlane 3 (by decide)]; rfl
    _ = d := lanesOf_lanes d

/-! ### The operand and the payload -/

/-- Every command is well-formed, by its types (`Laws.OperandFits`). -/
theorem Instr.wf_eq_true (i : Instr) : i.wf = true := by
  cases i with
  | enc16be n => exact Laws.OperandFits.enc16be n
  | dec16be b0 b1 => exact Laws.OperandFits.dec16be b0 b1
  | enc32be n => exact Laws.OperandFits.enc32be n
  | dec32be b0 b1 b2 b3 => exact Laws.OperandFits.dec32be b0 b1 b2 b3
  | enc16le n => exact Laws.OperandFits.enc16le n
  | crcInit => exact Laws.OperandFits.crcInit
  | crcUpd b => exact Laws.OperandFits.crcUpd b
  | crcRd => exact Laws.OperandFits.crcRd

theorem Instr.payload_lt (i : Instr) : i.payload < 2 ^ i.mnemonic.format.payloadBits :=
  of_decide_eq_true i.wf_eq_true

theorem Instr.toNat_dataWord (i : Instr) : i.dataWord.toNat = i.payload := by
  cases i with
  | enc16be n => exact BitVec.toNat_setWidth_of_le (by decide)
  | enc16le n => exact BitVec.toNat_setWidth_of_le (by decide)
  | crcUpd b => exact BitVec.toNat_setWidth_of_le (by decide)
  | dec16be b0 b1 => exact (toNat_lanesOf_four b0 b1 0 0).trans (by simp [Instr.payload])
  | dec32be b0 b1 b2 b3 => exact toNat_lanesOf_four b0 b1 b2 b3
  | _ => rfl

theorem Instr.commandOn_dataWord (i : Instr) : i.mnemonic.commandOn i.dataWord = i := by
  cases i with
  | enc16be n => exact congrArg Instr.enc16be (extractLsb'_zeroExtend (by decide) n)
  | enc16le n => exact congrArg Instr.enc16le (extractLsb'_zeroExtend (by decide) n)
  | crcUpd b => exact congrArg Instr.crcUpd (extractLsb'_zeroExtend (by decide) b)
  | dec16be b0 b1 =>
    simp [Instr.mnemonic, Instr.dataWord, Mnemonic.commandOn, lane_lanesOf]
  | dec32be b0 b1 b2 b3 =>
    simp [Instr.mnemonic, Instr.dataWord, Mnemonic.commandOn, lane_lanesOf]
  | _ => rfl

theorem Mnemonic.dataWord_commandOn (m : Mnemonic) {d : Data}
    (h : d.toNat < 2 ^ m.format.payloadBits) : (m.commandOn d).dataWord = d := by
  cases m with
  | enc16be => exact zeroExtend_extractLsb' h
  | enc16le => exact zeroExtend_extractLsb' h
  | crcUpd => exact zeroExtend_extractLsb' h
  | dec16be => exact lanesOf_two_lanes h
  | dec32be => exact lanesOf_lanes d
  | enc32be => rfl
  | crcInit => exact (BitVec.eq_of_toNat_eq (Nat.lt_one_iff.mp h)).symm
  | crcRd => exact (BitVec.eq_of_toNat_eq (Nat.lt_one_iff.mp h)).symm

/-! ### The decoder, said once -/

/-- The decoder on an assigned operation code: the command of its row if the reserved data bits are
zero (30_encoding.md R42). -/
theorem decodeFields_opCode (m : Mnemonic) (d : Data) :
    decodeFields m.opCode d =
      ifReservedZero (decide (d.toNat < 2 ^ m.format.payloadBits)) (m.commandOn d) := by
  have hreserved : ∀ k ≤ 32, (d.extractLsb' k (32 - k) == 0) = decide (d.toNat < 2 ^ k) :=
    fun k hk => decide_eq_decide.mpr (extractLsb'_high_eq_zero_iff d hk)
  have hzero : (d == 0) = decide (d.toNat < 2 ^ 0) :=
    decide_eq_decide.mpr (BitVec.toNat_eq.trans Nat.lt_one_iff.symm)
  have hall : true = decide (d.toNat < 2 ^ 32) := (decide_eq_true d.isLt).symm
  cases m with
  | enc16be => exact congrArg (ifReservedZero · _) (hreserved 16 (by decide))
  | dec16be => exact congrArg (ifReservedZero · _) (hreserved 16 (by decide))
  | enc16le => exact congrArg (ifReservedZero · _) (hreserved 16 (by decide))
  | crcUpd => exact congrArg (ifReservedZero · _) (hreserved 8 (by decide))
  | crcInit => exact congrArg (ifReservedZero · _) hzero
  | crcRd => exact congrArg (ifReservedZero · _) hzero
  | enc32be => exact congrArg (ifReservedZero · (.enc32be d)) hall
  | dec32be => exact congrArg (ifReservedZero · (Mnemonic.commandOn .dec32be d)) hall

/-- An operation code that decodes is assigned: the last arm of the decoder answers no operation
(30_encoding.md R41). -/
theorem opCode_of_decodeFields_ok {op : OpCode} {d : Data} {i : Instr}
    (h : decodeFields op d = .ok i) : ∃ m : Mnemonic, m.opCode = op := by
  unfold decodeFields at h
  split at h
  · exact ⟨.enc16be, rfl⟩
  · exact ⟨.dec16be, rfl⟩
  · exact ⟨.enc32be, rfl⟩
  · exact ⟨.dec32be, rfl⟩
  · exact ⟨.enc16le, rfl⟩
  · exact ⟨.crcInit, rfl⟩
  · exact ⟨.crcUpd, rfl⟩
  · exact ⟨.crcRd, rfl⟩
  · cases h

/-- What the decoder answers with an operation, by the fields of the word. -/
theorem decodeFields_eq_ok_iff {op : OpCode} {d : Data} {i : Instr} :
    decodeFields op d = .ok i ↔
      ∃ m : Mnemonic, m.opCode = op ∧ d.toNat < 2 ^ m.format.payloadBits ∧ m.commandOn d = i := by
  constructor
  · intro h
    obtain ⟨m, rfl⟩ := opCode_of_decodeFields_ok h
    rw [decodeFields_opCode, ifReservedZero_eq_ok, decide_eq_true_iff] at h
    exact ⟨m, rfl, h⟩
  · rintro ⟨m, rfl, hfits, hcommand⟩
    rw [decodeFields_opCode]
    exact ifReservedZero_eq_ok.mpr ⟨decide_eq_true hfits, hcommand⟩

theorem decode_encode (i : Instr) : decode (encode i) = .ok i := by
  rw [encode, decode_commandWord, decodeFields_eq_ok_iff]
  exact ⟨i.mnemonic, rfl, i.toNat_dataWord ▸ i.payload_lt, i.commandOn_dataWord⟩

theorem encode_injective : Function.Injective encode := by
  intro i j h
  have hdecode := decode_encode i
  rw [h, decode_encode j] at hdecode
  exact (Except.ok.inj hdecode).symm

theorem encode_of_decode {w : CommandWord} {i : Instr} (h : decode w = .ok i) : encode i = w := by
  obtain ⟨m, hop, hfits, rfl⟩ := decodeFields_eq_ok_iff.mp h
  rw [encode, m.mnemonic_commandOn, m.dataWord_commandOn hfits, hop, commandWord_fields]

/-- Settles O20: both directions go through the row of the command (`decodeFields_eq_ok_iff`). -/
theorem decodeAndEncodeAgree : Obligations.DecodeAndEncodeAgree :=
  ⟨decode_encode, fun _ _ h => encode_of_decode h⟩

/-- Settles O22: the word is its two fields, and the data field is the payload. -/
theorem operandSitsInItsFormat : Obligations.OperandSitsInItsFormat := fun i =>
  ⟨by rw [encode, toNat_commandWord, i.toNat_dataWord], i.payload_lt⟩

/-! ### The match and mask columns -/

/-- A row's match: its operation code and no data bit. -/
theorem Mnemonic.matchBits_eq (m : Mnemonic) : m.matchBits = commandWord m.opCode 0 := by
  cases m <;> rfl

/-- A row's mask: the operation code and the reserved data bits. -/
theorem Mnemonic.maskBits_eq (m : Mnemonic) :
    m.maskBits =
      commandWord (BitVec.allOnes 4) (BitVec.allOnes 32 <<< m.format.payloadBits) := by
  cases m <;> rfl

theorem commandWord_and (op op' : OpCode) (d d' : Data) :
    commandWord op d &&& commandWord op' d' = commandWord (op &&& op') (d &&& d') :=
  BitVec.and_append

/-- The bits from `k` on are zero exactly when the bus is below `2 ^ k`. -/
theorem and_allOnes_shiftLeft_eq_zero_iff (d : Data) {k : Nat} (hk : k ≤ 32) :
    d &&& BitVec.allOnes 32 <<< k = 0 ↔ d.toNat < 2 ^ k := by
  constructor
  · intro h
    rw [← extractLsb'_high_eq_zero_iff d hk]
    apply BitVec.eq_of_getLsbD_eq
    intro i hi
    have hbit := congrArg (BitVec.getLsbD · (k + i)) h
    simp only [BitVec.getLsbD_and, BitVec.getLsbD_shiftLeft, BitVec.getLsbD_allOnes] at hbit
    simpa [hi, show k + i < 32 by omega, show ¬ 32 ≤ i by omega] using hbit
  · intro h
    apply BitVec.eq_of_getLsbD_eq
    intro i _
    by_cases hlow : i < k
    · simp [hlow]
    · have hbit : d.getLsbD i = false :=
        Nat.testBit_lt_two_pow (h.trans_le (Nat.pow_le_pow_right (by decide) (by omega)))
      rw [BitVec.getLsbD_and, hbit]
      simp

theorem Mnemonic.payloadBits_le (m : Mnemonic) : m.format.payloadBits ≤ 32 := by
  cases m <;> decide

/-- A word given by its fields matches a row exactly when the operation code is the row's and the
reserved data bits are zero. -/
theorem commandWord_and_maskBits_eq_matchBits_iff (op : OpCode) (d : Data) (m : Mnemonic) :
    commandWord op d &&& m.maskBits = m.matchBits ↔
      op = m.opCode ∧ d.toNat < 2 ^ m.format.payloadBits := by
  rw [m.maskBits_eq, m.matchBits_eq, commandWord_and, commandWord_inj, BitVec.and_allOnes,
    and_allOnes_shiftLeft_eq_zero_iff d m.payloadBits_le]

/-- Settles O21: a word decodes in a row, and matches it, when its operation code is the row's and
the reserved data bits are zero. -/
theorem wordSpellsItsMatchingRow : Obligations.WordSpellsItsMatchingRow := by
  intro w m
  have hmatch := commandWord_and_maskBits_eq_matchBits_iff (opField w) (dataField w) m
  rw [commandWord_fields] at hmatch
  rw [hmatch]
  constructor
  · rintro ⟨i, hdecode, rfl⟩
    obtain ⟨m, hop, hfits, rfl⟩ := decodeFields_eq_ok_iff.mp hdecode
    rw [m.mnemonic_commandOn]
    exact ⟨hop.symm, hfits⟩
  · rintro ⟨hop, hfits⟩
    exact ⟨m.commandOn (dataField w), decodeFields_eq_ok_iff.mpr ⟨m, hop.symm, hfits, rfl⟩,
      m.mnemonic_commandOn _⟩

end Sys2Proof
end

section
/-! Illegal words (30_encoding.md R41, R42): the operation code is reserved or a reserved data bit
is set; and how many words are left. -/

namespace Sys2Proof

open Sys2Proof.Machine

/-- The reserved operation codes are those of no row (30_encoding.md R41). -/
theorem Mnemonic.opCode_not_reserved (m : Mnemonic) :
    m.opCode ∉ ([0x0, 0x6, 0x7, 0xB, 0xC, 0xD, 0xE, 0xF] : List OpCode) := by
  cases m <;> decide

/-- A word that cannot be decoded raises `IllegalCommand` (60_exceptions.md R66). -/
theorem acceptWord_of_not_ok {w : CommandWord} (h : ∀ i, decode w ≠ .ok i) (s : State) :
    acceptWord w s = .next s.raiseIllegalCommand := by
  cases hdecode : decode w with
  | ok i => exact absurd hdecode (h i)
  | error e => exact acceptWord_of_error hdecode s

/-- Settles O23: an operation code that decodes is one of a row, and no row has a reserved one. -/
theorem reservedOperationCodesRaiseIllegalCommand :
    Obligations.ReservedOperationCodesRaiseIllegalCommand := by
  intro op hreserved d s
  refine acceptWord_of_not_ok (fun i hdecode => ?_) s
  rw [decode_commandWord] at hdecode
  obtain ⟨m, rfl⟩ := opCode_of_decodeFields_ok hdecode
  exact m.opCode_not_reserved hreserved

/-- A set reserved data bit is a reason not to decode. -/
theorem decode_opCode_of_payload_too_wide {m : Mnemonic} {d : Data}
    (h : 2 ^ m.format.payloadBits ≤ d.toNat) :
    decode (commandWord m.opCode d) = .error .reservedDataBits := by
  rw [decode_commandWord, decodeFields_opCode, decide_eq_false (Nat.not_lt.mpr h)]
  rfl

/-- The legal word of a command. -/
def legalWord (i : Instr) : { w : CommandWord // legal w = true } :=
  ⟨encode i, Safety.legal_of_ok (decode_encode i)⟩

/-- Each command has one legal word, and each legal word is that of a command
(30_encoding.md R44). -/
theorem legalWord_bijective : Function.Bijective legalWord := by
  constructor
  · exact fun _ _ h => encode_injective (congrArg Subtype.val h)
  · rintro ⟨w, hlegal⟩
    obtain ⟨i, hdecode⟩ := (legal_iff w).mp hlegal
    exact ⟨i, Subtype.ext (encode_of_decode hdecode)⟩

/-- The operands of the commands, row by row of the opcode map. -/
abbrev Operands : Type :=
  Half ⊕ (Byte × Byte) ⊕ Data ⊕ (Byte × Byte × Byte × Byte) ⊕ Half ⊕ Unit ⊕ Byte ⊕ Unit

/-- A command is a row of the opcode map and an operand of it. -/
def instrEquivOperands : Instr ≃ Operands where
  toFun
    | .enc16be n => .inl n
    | .dec16be b0 b1 => .inr (.inl (b0, b1))
    | .enc32be n => .inr (.inr (.inl n))
    | .dec32be b0 b1 b2 b3 => .inr (.inr (.inr (.inl (b0, b1, b2, b3))))
    | .enc16le n => .inr (.inr (.inr (.inr (.inl n))))
    | .crcInit => .inr (.inr (.inr (.inr (.inr (.inl ())))))
    | .crcUpd b => .inr (.inr (.inr (.inr (.inr (.inr (.inl b))))))
    | .crcRd => .inr (.inr (.inr (.inr (.inr (.inr (.inr ()))))))
  invFun
    | .inl n => .enc16be n
    | .inr (.inl (b0, b1)) => .dec16be b0 b1
    | .inr (.inr (.inl n)) => .enc32be n
    | .inr (.inr (.inr (.inl (b0, b1, b2, b3)))) => .dec32be b0 b1 b2 b3
    | .inr (.inr (.inr (.inr (.inl n)))) => .enc16le n
    | .inr (.inr (.inr (.inr (.inr (.inl ()))))) => .crcInit
    | .inr (.inr (.inr (.inr (.inr (.inr (.inl b)))))) => .crcUpd b
    | .inr (.inr (.inr (.inr (.inr (.inr (.inr ())))))) => .crcRd
  left_inv i := by cases i <;> rfl
  right_inv o := by rcases o with n | p | n | q | n | _ | b | _ <;> rfl

theorem natCard_bitVec (n : Nat) : Nat.card (BitVec n) = 2 ^ n :=
  (Nat.card_congr BitVec.equivFin.toEquiv).trans (Nat.card_fin _)

theorem card_instr : Nat.card Instr = 2 * 2 ^ 32 + 3 * 2 ^ 16 + 2 ^ 8 + 2 := by
  rw [Nat.card_congr instrEquivOperands]
  simp only [Nat.card_sum, Nat.card_prod, Nat.card_unique, natCard_bitVec]
  norm_num

/-- Settles O24: the word is illegal, so the block raises and performs nothing; and the legal words
are counted by their commands. -/
theorem reservedDataBitsRaiseIllegalCommand : Obligations.ReservedDataBitsRaiseIllegalCommand :=
  ⟨fun _ _ s hwide => acceptWord_of_error (decode_opCode_of_payload_too_wide hwide) s,
    (Nat.card_eq_of_bijective legalWord legalWord_bijective).symm.trans card_instr⟩

end Sys2Proof
end

section
/-! Words presented at the port, and runs over the moves to come (20_memory.md R33; 30_encoding.md
R37, R46). -/

namespace Sys2Proof.Machine

/-- The number of a command word is that word. -/
theorem tableWord_toNat (w : CommandWord) : tableWord 36 w.toNat = some w := by
  simp [tableWord, Nat.mod_eq_of_lt w.isLt, w.isLt]

/-- Presenting a word by its number puts it before the moves still to come. -/
theorem withFetchWord_toNat (s : State) (w : CommandWord) :
    s.withFetchWord 36 w.toNat = { s with pending := .command w :: s.pending } := by
  simp [State.withFetchWord, tableWord_toNat]

/-- The step with the word of a command next is that command. -/
theorem step_encode {s : State} {i : Instr} {rest : List HostMove}
    (h : s.pending = .command (encode i) :: rest) :
    step s = exec i (s.take (.command (encode i)) rest) :=
  stepRunsTheDecodedCommand s (encode i) rest i h (decode_encode i)

/-- The same with the next state written out (`exec_eq`). -/
theorem step_encode_next {s : State} {i : Instr} {rest : List HostMove}
    (h : s.pending = .command (encode i) :: rest) :
    step s = .next { s with
      crc := crcAfter s.crc i
      pending := rest
      history := s.history ++ [.command (encode i)]
      completions := s.completions ++ [⟨responseOf s.crc i, .ok⟩] } :=
  (step_encode h).trans (exec_eq i _)

/-- Settles O27: the word presented is the next move, and it decodes to its command. -/
theorem presentedCommandRunsNext : Obligations.PresentedCommandRunsNext := by
  intro s i
  constructor
  · simp [decodeTableWord, tableWord_toNat, decode_encode, Except.toOption]
  · rw [withFetchWord_toNat]
    exact step_encode rfl

/-- A move to come is made by one step, which completes one command if the move is one. -/
theorem step_makes_move {s : State} {m : HostMove} {rest : List HostMove}
    (h : s.pending = m :: rest) :
    ∃ t, step s = .next t ∧ t.pending = rest ∧ t.history = s.history ++ [m] ∧
      t.completions.length =
        s.completions.length + ([m].filterMap Safety.commandOf).length := by
  cases m with
  | reset lost => exact ⟨_, step_reset h, rfl, rfl, rfl⟩
  | command w =>
    cases hdecode : decode w with
    | ok i =>
      exact ⟨_, (step_command h).trans (acceptWord_eq_of_ok hdecode _), rfl, rfl,
        List.length_append⟩
    | error e =>
      exact ⟨_, (step_command h).trans (acceptWord_of_error hdecode _), rfl, rfl,
        List.length_append⟩

/-- Settles O39, by induction on the moves to come (`step_makes_move`). -/
theorem everyAcceptedCommandCompletesOnce : Obligations.EveryAcceptedCommandCompletesOnce := by
  intro s
  induction hms : s.pending generalizing s with
  | nil => exact ⟨s, run_zero s, hms, by simp, by simp⟩
  | cons m rest ih =>
    obtain ⟨s', hstep, hpending, hhistory, hcompletions⟩ := step_makes_move hms
    obtain ⟨t, hrun, hnone, hmade, hcount⟩ := ih s' hpending
    refine ⟨t, (run_succ_of_next rest.length hstep).trans hrun, hnone,
      by simp [hmade, hhistory], ?_⟩
    have hsplit : (m :: rest).filterMap Safety.commandOf =
        [m].filterMap Safety.commandOf ++ rest.filterMap Safety.commandOf :=
      List.filterMap_append (l := [m])
    rw [hcount, hcompletions, hsplit, List.length_append, Nat.add_assoc]

/-- No step stops the block (60_exceptions.md R66). -/
theorem exists_step_eq_next (s : State) : ∃ t, step s = .next t := by
  rcases step_cases s with ⟨-, hstep⟩ | ⟨_, _, -, hstep⟩ | ⟨_, _, _, -, -, hstep⟩ |
    ⟨_, _, _, -, -, hstep⟩
  · exact ⟨_, hstep⟩
  · exact ⟨_, hstep⟩
  · exact ⟨_, hstep.trans (exec_eq _ _)⟩
  · exact ⟨_, hstep⟩

/-- A run in two parts. -/
theorem run_add_of_next {j : Nat} (k : Nat) {s t : State}
    (h : Sys2Proof.core.run j s = .next t) :
    Sys2Proof.core.run (j + k) s = Sys2Proof.core.run k t := by
  induction j generalizing s with
  | zero =>
    obtain rfl := Host.Outcome.next.inj h
    rw [Nat.zero_add]
  | succ j ih =>
    obtain ⟨s', hstep⟩ := exists_step_eq_next s
    rw [run_succ_of_next j hstep] at h
    rw [Nat.succ_add, run_succ_of_next (j + k) hstep, ih h]

/-- Settles O44: the seed, then the bytes from the seed (`run_updMoves`), then the read. -/
theorem computeSequenceReturnsTheChecksum : Obligations.ComputeSequenceReturnsTheChecksum := by
  intro bytes s rest
  have hmoves : computeMoves bytes ++ rest =
      .command (encode .crcInit) :: (updMoves bytes ++ .command (encode .crcRd) :: rest) := by
    simp [computeMoves, updMoves]
  have hinit := step_encode_next (s := { s with pending := computeMoves bytes ++ rest }) hmoves
  have hupd := run_updMoves bytes (.command (encode .crcRd) :: rest) { s with
    crc := Config.seed
    history := s.history ++ [.command (encode .crcInit)]
    completions := s.completions ++ [⟨none, .ok⟩] }
  rw [run_succ_of_next (bytes.length + 1) hinit]
  refine (run_add_of_next 1 hupd).trans ?_
  rw [run_succ_of_next 0 (step_encode_next rfl), run_zero]
  simp [computeMoves, updMoves, List.replicate_succ, crcAfter, responseOf, compute, numberResponse]

end Sys2Proof.Machine
end

section
/-! Running a written listing (30_encoding.md R45, R46). -/

namespace Sys2Proof.Machine

/-- A line that assembles is the acceptance of its word. -/
theorem runLine_of_assembles {base here : Nat} {l : Line} {s : State} {w : CommandWord}
    (h : assembleLine (responseOfLine base s) here l = .ok w) :
    runLine base here l s = acceptWord w { s with history := s.history ++ [.command w] } := by
  simp only [runLine, h]
  rfl

theorem runLine_of_refused {base here : Nat} {l : Line} {s : State} {r : Refusal}
    (h : assembleLine (responseOfLine base s) here l = .error r) :
    runLine base here l s = .refused r := by
  simp only [runLine, h]

theorem assembleLine_of_response {rsp : Nat → Response} {here k : Nat} {m : Mnemonic} {d : Data}
    (hwf : (Line.command m (.response k)).wf here = true) (h : rsp k = some d) :
    assembleLine rsp here (.command m (.response k)) = .ok (commandWord m.opCode d) := by
  simp [assembleLine, hwf, h]

theorem assembleLine_of_no_response {rsp : Nat → Response} {here k : Nat} {m : Mnemonic}
    (hwf : (Line.command m (.response k)).wf here = true) (h : rsp k = none) :
    assembleLine rsp here (.command m (.response k)) = .error .forwardsNoResponse := by
  simp [assembleLine, hwf, h]

/-- Settles O51: the line assembles to the word with that response, or to the refusal. -/
theorem forwardingTakesTheResponseUnchanged : Obligations.ForwardingTakesTheResponseUnchanged :=
  fun _ _ _ _ _ hwf =>
    ⟨fun _ hrsp => runLine_of_assembles (assembleLine_of_response hwf hrsp),
      fun hnone => runLine_of_refused (assembleLine_of_no_response hwf hnone)⟩

/-- A line that assembles to the word of a command does what that command does (`exec_eq`). -/
theorem runLine_of_assembles_encode {base here : Nat} {l : Line} {s : State} {i : Instr}
    (h : assembleLine (responseOfLine base s) here l = .ok (encode i)) :
    runLine base here l s = .next { s with
      crc := crcAfter s.crc i
      history := s.history ++ [.command (encode i)]
      completions := s.completions ++ [⟨responseOf s.crc i, .ok⟩] } :=
  (runLine_of_assembles h).trans (acceptWord_eq_of_ok (decode_encode i) _)

/-- A listing goes on after a line that answers a next state. -/
theorem runLines_cons_of_next {base here : Nat} {l : Line} (ls : List Line) {s t : State}
    (h : runLine base here l s = .next t) :
    runLines base here (l :: ls) s = runLines base (here + 1) ls t := by
  simp only [runLines, h]

theorem assembleLine_crcInit (rsp : Nat → Response) (here : Nat) :
    assembleLine rsp here (.command .crcInit .none) = .ok (encode .crcInit) := rfl

theorem assembleLine_crcRd (rsp : Nat → Response) (here : Nat) :
    assembleLine rsp here (.command .crcRd .none) = .ok (encode .crcRd) := rfl

theorem assembleLine_crcUpd (rsp : Nat → Response) (here : Nat) (b : Byte) :
    assembleLine rsp here (.command .crcUpd (.number b.toNat)) = .ok (encode (.crcUpd b)) := by
  have hwf : (Line.command .crcUpd (.number b.toNat)).wf here = true := decide_eq_true b.isLt
  simp [assembleLine, hwf, encode, Instr.mnemonic, Instr.dataWord]

/-- A forwarded checksum makes the word of `ENC16LE` of it: the response carries it zero-extended
(30_encoding.md R39). -/
theorem assembleLine_enc16le_response {rsp : Nat → Response} {k : Nat} {n : Half} (hk : 1 ≤ k)
    (h : rsp k = some (numberResponse n)) :
    assembleLine rsp (k + 1) (.command .enc16le (.response k)) = .ok (encode (.enc16le n)) := by
  have hwf : (Line.command .enc16le (.response k)).wf (k + 1) = true := by
    simp [Line.wf, Operand.wf, Mnemonic.format, hk]
  exact assembleLine_of_response hwf h

/-- The lines that absorb the bytes of a message, in a listing that goes on. -/
theorem runLines_updLines (base here : Nat) (bytes : List Byte) (ls : List Line) (s : State) :
    runLines base here
        (bytes.map (fun b => Line.command .crcUpd (.number b.toNat)) ++ ls) s =
      runLines base (here + bytes.length) ls { s with
        crc := crcBytes s.crc bytes
        history := s.history ++ updMoves bytes
        completions := s.completions ++ List.replicate bytes.length ⟨none, .ok⟩ } := by
  induction bytes generalizing here s with
  | nil => simp [updMoves]
  | cons b bytes ih =>
    have hline := runLine_of_assembles_encode (base := base) (s := s)
      (assembleLine_crcUpd _ here b)
    have hnumber : here + 1 + bytes.length = here + (b :: bytes).length := by simp; omega
    refine (runLines_cons_of_next _ hline).trans ((ih _ _).trans ?_)
    rw [hnumber]
    simp [updMoves, List.replicate_succ, crcAfter, responseOf]

/-- `COMPUTE` in a listing that goes on (30_encoding.md R46). -/
theorem runLines_computeLines (base here : Nat) (bytes : List Byte) (ls : List Line) (s : State) :
    runLines base here (computeLines bytes ++ ls) s =
      runLines base (here + bytes.length + 2) ls { s with
        crc := compute bytes
        history := s.history ++ computeMoves bytes
        completions := s.completions ++ List.replicate (bytes.length + 1) ⟨none, .ok⟩ ++
          [⟨some (numberResponse (compute bytes)), .ok⟩] } := by
  have hinit := runLine_of_assembles_encode (base := base) (s := s) (assembleLine_crcInit _ here)
  have hnumber : here + 1 + bytes.length + 1 = here + bytes.length + 2 := by omega
  rw [computeLines, List.cons_append, List.append_assoc, runLines_cons_of_next _ hinit,
    runLines_updLines, List.singleton_append,
    runLines_cons_of_next _ (runLine_of_assembles_encode (assembleLine_crcRd _ _)), hnumber]
  simp [computeMoves, updMoves, List.replicate_succ, crcAfter, responseOf, compute]

/-- The response of a line whose completion is the last one so far. -/
theorem responseOfLine_concat {base k : Nat} {s : State} {earlier : List Completion}
    {c : Completion} (hlast : s.completions = earlier ++ [c])
    (hnumber : earlier.length = base + (k - 1)) : responseOfLine base s k = c.response := by
  simp [responseOfLine, hlast, ← hnumber]

/-- `TRAILER` ends a listing: on line `here` it reads the checksum, and on the next it makes the
low-byte-first pair of it (30_encoding.md R46). -/
theorem runLines_trailerLines {base here : Nat} {s : State} (hhere : 1 ≤ here)
    (hnumber : s.completions.length = base + (here - 1)) :
    runLines base here (trailerLines here) s = .next { s with
      history := s.history ++ [.command (encode .crcRd), .command (encode (.enc16le s.crc))]
      completions := s.completions ++ [⟨some (numberResponse s.crc), .ok⟩,
        ⟨some (sequenceResponse (encodeU16Le s.crc)), .ok⟩] } := by
  have hread := runLine_of_assembles_encode (base := base) (s := s) (assembleLine_crcRd _ here)
  have hresponse : ∀ t : State,
      t.completions = s.completions ++ [⟨some (numberResponse s.crc), .ok⟩] →
      responseOfLine base t here = some (numberResponse s.crc) :=
    fun t hlast => responseOfLine_concat hlast hnumber
  rw [trailerLines, runLines_cons_of_next _ hread, runLines_cons_of_next _
    (runLine_of_assembles_encode (assembleLine_enc16le_response hhere (hresponse _ rfl)))]
  simp [runLines, crcAfter, responseOf]

/-! ### The trailer of a message verifies -/

/-- Absorbing its own low byte moves the high byte of a running value down (41_crc.md R60). -/
theorem crcByte_lowByte (v : Half) :
    crcByte v (v.extractLsb' 0 8) = (v.extractLsb' 8 8).zeroExtend 16 := by
  have hhigh : v ^^^ (v.extractLsb' 0 8).zeroExtend 16 =
      0#16 ^^^ (v.extractLsb' 8 8).zeroExtend 16 <<< 8 := by
    calc v ^^^ (v.extractLsb' 0 8).zeroExtend 16
        = (v.extractLsb' 0 8).zeroExtend 16 ^^^
            ((v.extractLsb' 0 8).zeroExtend 16 ^^^ (v.extractLsb' 8 8).zeroExtend 16 <<< 8) := by
          rw [xor_bytes, BitVec.xor_comm]
      _ = 0#16 ^^^ (v.extractLsb' 8 8).zeroExtend 16 <<< 8 := by
          rw [← BitVec.xor_assoc, BitVec.xor_self]
  have hzero : crcIterate Config.iter 0#16 = 0#16 := by decide
  rw [crcByte, hhigh, crcIterate_iter_xor_highByte, hzero, BitVec.zero_xor]

/-- Absorbing its own two bytes, low byte first, leaves zero (41_crc.md R62). -/
theorem crcBytes_encodeU16Le (v : Half) : crcBytes v (encodeU16Le v) = 0 := by
  rw [encodeU16Le, crcBytes_cons, crcBytes_cons, crcBytes_nil, crcByte_lowByte, crcByte,
    BitVec.xor_self]
  decide

/-- The frame of a message leaves the checksum zero (41_crc.md R62). -/
theorem compute_frameOf (m : List Byte) : compute (frameOf m) = 0 :=
  (crcBytes_append Config.seed m _).trans (crcBytes_encodeU16Le (compute m))

/-- Settles O50: `COMPUTE`, then `TRAILER` (`runLines_computeLines`, `runLines_trailerLines`); the
lanes of the last response are the trailer of the frame, which leaves the checksum zero. -/
theorem computeThenTrailerBuildsAVerifyingFrame :
    Obligations.ComputeThenTrailerBuildsAVerifyingFrame := by
  intro m s
  have hframe : frameOf m = m ++ [lane (sequenceResponse (encodeU16Le (compute m))) 0,
      lane (sequenceResponse (encodeU16Le (compute m))) 1] := by
    simp [sequenceResponse, lane_lanesOf, encodeU16Le, frameOf]
  have hcompute := runLines_computeLines s.completions.length 1 m (trailerLines (m.length + 3)) s
  rw [show 1 + m.length + 2 = m.length + 3 by omega] at hcompute
  refine ⟨_, sequenceResponse (encodeU16Le (compute m)),
    hcompute.trans (runLines_trailerLines (by omega) (by simp)), rfl, rfl, rfl, by simp, by simp,
    hframe, ?_⟩
  rw [acceptsByResidue, ← hframe, compute_frameOf]
  rfl

end Sys2Proof.Machine
end

section
/-! The byte-order codec (40_codec.md): the five functions, and their commands at the port. -/

namespace Sys2Proof.Machine

/-! ### Numbers and byte sequences (R55(a), (c), (d)) -/

theorem encodeU16Be_decodeU16Be (b0 b1 : Byte) : encodeU16Be (decodeU16Be b0 b1) = [b0, b1] := by
  rw [encodeU16Be, decodeU16Be, BitVec.extractLsb'_append_eq_left,
    BitVec.extractLsb'_append_eq_right]

/-- The big-endian sequence of a 32-bit number is its four lanes, the highest first. -/
theorem encodeU32Be_eq_lanes (n : Data) :
    encodeU32Be n = [lane n 3, lane n 2, lane n 1, lane n 0] := rfl

/-- A big-endian number is the bus that carries its bytes backwards. -/
theorem decodeU32Be_eq_lanesOf (b0 b1 b2 b3 : Byte) :
    decodeU32Be b0 b1 b2 b3 = lanesOf [b3, b2, b1, b0] := rfl

theorem encodeU32Be_lanesOf (b0 b1 b2 b3 : Byte) :
    encodeU32Be (lanesOf [b0, b1, b2, b3]) = [b3, b2, b1, b0] := by
  simp [encodeU32Be_eq_lanes, lane_lanesOf]

theorem encodeU32Be_append (hi lo : Half) :
    encodeU32Be (hi ++ lo) = encodeU16Be hi ++ encodeU16Be lo := by
  have hhigh : ∀ k, 16 ≤ k → (hi ++ lo).extractLsb' k 8 = hi.extractLsb' (k - 16) 8 :=
    fun _ h => BitVec.extractLsb'_append_eq_of_le h
  have hlow : ∀ k, k + 8 ≤ 16 → (hi ++ lo).extractLsb' k 8 = lo.extractLsb' k 8 :=
    fun _ h => BitVec.extractLsb'_append_eq_of_add_le h
  rw [encodeU32Be, hhigh 24 (by decide), hhigh 16 (by decide), hlow 8 (by decide),
    hlow 0 (by decide)]
  rfl

theorem decodeU32Be_eq_append (b0 b1 b2 b3 : Byte) :
    decodeU32Be b0 b1 b2 b3 = decodeU16Be b0 b1 ++ decodeU16Be b2 b3 :=
  BitVec.append_assoc

/-- Settles O15: a 16-bit number is its two bytes, and a 32-bit number its four lanes. -/
theorem codecRoundTrips : Obligations.CodecRoundTrips :=
  ⟨fun n => ⟨_, _, rfl, highByte_append_lowByte n⟩, encodeU16Be_decodeU16Be,
    fun n => ⟨_, _, _, _, encodeU32Be_eq_lanes n, lanesOf_lanes n⟩,
    fun b0 b1 b2 b3 => encodeU32Be_lanesOf b3 b2 b1 b0⟩

/-- Settles O17: the reversal is the definition of `encodeU16Le`, and a 32-bit number is its two
halves (`encodeU32Be_append`, `decodeU32Be_eq_append`). -/
theorem wideCodecIsTwoNarrowOnes : Obligations.WideCodecIsTwoNarrowOnes := by
  refine ⟨fun _ => rfl, fun n => ?_, fun b0 b1 b2 b3 => ?_⟩
  · have hhalves : n.extractLsb' 16 16 ++ n.extractLsb' 0 16 = n :=
      BitVec.extractLsb'_append_extractLsb' (len := 16) (w := 16)
    rw [← encodeU32Be_append, hhalves]
  · rw [decodeU32Be_eq_append]
    exact ⟨BitVec.extractLsb'_append_eq_left, BitVec.extractLsb'_append_eq_right⟩

/-! ### The five commands (R49 to R54) -/

/-- Settles O18: no response of the five mentions the state. -/
theorem codecCommandsArePure : Obligations.CodecCommandsArePure := by
  intro i hcodec
  cases i with
  | enc16be n => exact ⟨_, fun _ => rfl⟩
  | dec16be b0 b1 => exact ⟨_, fun _ => rfl⟩
  | enc32be n => exact ⟨_, fun _ => rfl⟩
  | dec32be b0 b1 b2 b3 => exact ⟨_, fun _ => rfl⟩
  | enc16le n => exact ⟨_, fun _ => rfl⟩
  | _ => exact absurd hcodec (by simp [Instr.mnemonic])

/-- The upper half of a bus that carries a 16-bit number is zero. -/
theorem extractLsb'_high_numberResponse (n : Half) :
    (numberResponse n).extractLsb' 16 16 = 0 := by
  rw [numberResponse, extractLsb'_high_eq_zero_iff _ (by decide : 16 ≤ 32),
    BitVec.toNat_setWidth_of_le (by decide)]
  exact n.isLt

theorem extractLsb'_high_lanesOf_pair (b0 b1 : Byte) :
    (lanesOf [b0, b1]).extractLsb' 16 16 = 0 :=
  (congrArg (BitVec.extractLsb' 16 16) (sequenceResponse_pair b0 b1)).trans
    (extractLsb'_high_numberResponse _)

/-- The number of a big-endian pair is carried as the pair read backwards. -/
theorem numberResponse_decodeU16Be (b0 b1 : Byte) :
    numberResponse (decodeU16Be b0 b1) = lanesOf [b1, b0] :=
  (sequenceResponse_pair b1 b0).symm

theorem sequenceResponse_encodeU16Le (n : Half) :
    sequenceResponse (encodeU16Le n) = numberResponse n :=
  (sequenceResponse_pair _ _).trans (congrArg numberResponse (highByte_append_lowByte n))

/-- Settles O1: the response is the pair of the high byte and the low byte. -/
theorem enc16beRespondsHighByteFirst : Obligations.Enc16beRespondsHighByteFirst := fun n _ =>
  ⟨decode_encode (.enc16be n), _, rfl, lane_lanesOf (k := 0) _ (by decide),
    lane_lanesOf (k := 1) _ (by decide), extractLsb'_high_lanesOf_pair _ _⟩

/-- Settles O2: the response carries the number, which is the pair read backwards
(`numberResponse_decodeU16Be`). -/
theorem dec16beRespondsFirstByteAsHighByte : Obligations.Dec16beRespondsFirstByteAsHighByte := by
  intro b0 b1 s
  refine ⟨decode_encode (.dec16be b0 b1), numberResponse (decodeU16Be b0 b1), rfl, ?_, ?_⟩
  · rw [numberResponse, BitVec.toNat_setWidth_of_le (by decide)]
    exact toNat_append_eq_add b0 b1
  · rw [numberResponse_decodeU16Be]
    exact ⟨lane_lanesOf (k := 1) _ (by decide), lane_lanesOf (k := 0) _ (by decide),
      extractLsb'_high_lanesOf_pair _ _⟩

/-- Settles O3: the response carries the four bytes, the most significant in lane 0. -/
theorem enc32beRespondsMostSignificantByteFirst :
    Obligations.Enc32beRespondsMostSignificantByteFirst := fun n _ =>
  ⟨decode_encode (.enc32be n), _, rfl, lane_lanesOf (k := 0) _ (by decide),
    lane_lanesOf (k := 1) _ (by decide), lane_lanesOf (k := 2) _ (by decide),
    lane_lanesOf (k := 3) _ (by decide)⟩

/-- Settles O4: the response is the four bytes backwards (`decodeU32Be_eq_lanesOf`). -/
theorem dec32beRespondsFirstByteAsMostSignificant :
    Obligations.Dec32beRespondsFirstByteAsMostSignificant := by
  intro b0 b1 b2 b3 s
  refine ⟨decode_encode (.dec32be b0 b1 b2 b3), decodeU32Be b0 b1 b2 b3, rfl, ?_, ?_⟩
  · rw [decodeU32Be_eq_lanesOf, toNat_lanesOf_four]
    omega
  · rw [decodeU32Be_eq_lanesOf]
    exact ⟨lane_lanesOf (k := 3) _ (by decide), lane_lanesOf (k := 2) _ (by decide),
      lane_lanesOf (k := 1) _ (by decide), lane_lanesOf (k := 0) _ (by decide)⟩

/-- Settles O5: the response is the pair of the low byte and the high byte, which is the operand
as a number (`sequenceResponse_encodeU16Le`). -/
theorem enc16leRespondsLowByteFirst : Obligations.Enc16leRespondsLowByteFirst := fun n _ =>
  ⟨decode_encode (.enc16le n), _, rfl, lane_lanesOf (k := 0) _ (by decide),
    lane_lanesOf (k := 1) _ (by decide), extractLsb'_high_lanesOf_pair _ _,
    (sequenceResponse_encodeU16Le n).trans (dataField_commandWord _ _).symm⟩

/-! ### The same commands on the wires (R55(b)): what each does to the lanes of `cmd.data` -/

/-- Accepting the word of a command: the state `exec_eq` gives. -/
theorem acceptWord_encode (i : Instr) (s : State) :
    acceptWord (encode i) s =
      .next ((s.writeCrc (crcAfter s.crc i)).complete (responseOf s.crc i) .ok) :=
  acceptWord_eq_of_ok (decode_encode i) s

theorem acceptWord_enc16be_lanes (b0 b1 : Byte) (s : State) :
    acceptWord (commandWord 0x1#4 (lanesOf [b0, b1])) s = .next (s.respond (lanesOf [b1, b0])) := by
  rw [← numberResponse_decodeU16Be]
  refine (acceptWord_encode (.enc16be (decodeU16Be b1 b0)) s).trans ?_
  rw [responseOf, encodeU16Be_decodeU16Be]
  rfl

theorem acceptWord_dec16be_lanes (b0 b1 : Byte) (s : State) :
    acceptWord (commandWord 0x2#4 (lanesOf [b0, b1])) s = .next (s.respond (lanesOf [b1, b0])) := by
  rw [← numberResponse_decodeU16Be b0 b1]
  exact acceptWord_encode (.dec16be b0 b1) s

theorem acceptWord_enc16le_lanes (b0 b1 : Byte) (s : State) :
    acceptWord (commandWord 0x5#4 (lanesOf [b0, b1])) s = .next (s.respond (lanesOf [b0, b1])) := by
  rw [← numberResponse_decodeU16Be]
  refine (acceptWord_encode (.enc16le (decodeU16Be b1 b0)) s).trans ?_
  rw [responseOf, sequenceResponse_encodeU16Le]
  rfl

theorem acceptWord_enc32be_lanes (b0 b1 b2 b3 : Byte) (s : State) :
    acceptWord (commandWord 0x3#4 (lanesOf [b0, b1, b2, b3])) s =
      .next (s.respond (lanesOf [b3, b2, b1, b0])) := by
  refine (acceptWord_encode (.enc32be (lanesOf [b0, b1, b2, b3])) s).trans ?_
  rw [responseOf, encodeU32Be_lanesOf]
  rfl

theorem acceptWord_dec32be_lanes (b0 b1 b2 b3 : Byte) (s : State) :
    acceptWord (commandWord 0x4#4 (lanesOf [b0, b1, b2, b3])) s =
      .next (s.respond (lanesOf [b3, b2, b1, b0])) :=
  acceptWord_encode (.dec32be b0 b1 b2 b3) s

/-- Settles O16: on a bus of two lanes, and on one of four, both commands of a pair exchange the
lanes end for end, and `ENC16LE` keeps them. -/
theorem codecPairsAgreeOnTheWires : Obligations.CodecPairsAgreeOnTheWires := by
  refine ⟨fun d s hhigh => ?_, fun d s => ?_⟩
  · have hfits : d.toNat < 2 ^ 16 := (extractLsb'_high_eq_zero_iff d (by decide)).mp hhigh
    rw [← lanesOf_two_lanes hfits]
    exact ⟨(acceptWord_enc16be_lanes _ _ s).trans (acceptWord_dec16be_lanes _ _ s).symm,
      acceptWord_enc16le_lanes _ _ s, lanesOf [lane d 1, lane d 0],
      extractLsb'_high_lanesOf_pair _ _, acceptWord_enc16be_lanes _ _ s,
      acceptWord_dec16be_lanes _ _ s⟩
  · rw [← lanesOf_lanes d]
    exact ⟨(acceptWord_enc32be_lanes _ _ _ _ s).trans (acceptWord_dec32be_lanes _ _ _ _ s).symm,
      lanesOf [lane d 3, lane d 2, lane d 1, lane d 0], acceptWord_enc32be_lanes _ _ _ _ s,
      acceptWord_dec32be_lanes _ _ _ _ s⟩

end Sys2Proof.Machine
end

section
/-! The three commands of the CRC generator (41_crc.md R59 to R61). -/

namespace Sys2Proof.Machine

/-- Settles O6: the word is the encoding of `CRC.INIT`, and the meaning writes the seed. -/
theorem crcInitSeedsTheRegister : Obligations.CrcInitSeedsTheRegister :=
  ⟨decode_encode .crcInit, fun s => exec_eq .crcInit s⟩

/-- Settles O7: the word is the encoding of `CRC.UPD b`, and the meaning writes `crcByte`, whose
eight iterations `crcByte_eq` writes out. -/
theorem crcUpdAbsorbsOneByte : Obligations.CrcUpdAbsorbsOneByte := by
  intro b s
  refine ⟨decode_encode (.crcUpd b), ?_⟩
  rw [← crcByte_eq]
  exact exec_eq (.crcUpd b) s

/-- The low half of a bus that carries a 16-bit number is the number. -/
theorem extractLsb'_low_numberResponse (n : Half) : (numberResponse n).extractLsb' 0 16 = n :=
  extractLsb'_zeroExtend (by decide) n

/-- Settles O8: the response carries the register, and the meaning writes nothing. -/
theorem crcRdRespondsRegister : Obligations.CrcRdRespondsRegister :=
  ⟨decode_encode .crcRd, fun s => ⟨numberResponse s.crc, exec_eq .crcRd s,
    extractLsb'_low_numberResponse s.crc, extractLsb'_high_numberResponse s.crc⟩⟩

end Sys2Proof.Machine
end

section
/-! The algorithm as R58 defines it, and one iteration bit by bit. -/

namespace Sys2Proof.Machine

/-- The XOR with a byte leaves the high byte. -/
theorem extractLsb'_high_xor_byte (v : Half) (b : Byte) :
    (v ^^^ b.zeroExtend 16).extractLsb' 8 8 = v.extractLsb' 8 8 := by
  apply BitVec.eq_of_getLsbD_eq
  intro i hi
  simp

/-- The XOR with a byte meets the low byte. -/
theorem extractLsb'_low_xor_byte (v : Half) (b : Byte) :
    (v ^^^ b.zeroExtend 16).extractLsb' 0 8 = v.extractLsb' 0 8 ^^^ b := by
  apply BitVec.eq_of_getLsbD_eq
  intro i hi
  simp [hi, show i < 16 by omega]

/-- Settles O9: the two definitions, what the XOR with a byte meets, and one more byte
(`compute_concat`). -/
theorem computeIsTheAlgorithm : Obligations.ComputeIsTheAlgorithm :=
  ⟨fun _ => rfl, fun v b => ⟨extractLsb'_high_xor_byte v b, extractLsb'_low_xor_byte v b⟩,
    crcByte_eq, compute_nil, Safety.compute_concat⟩

/-- Bit `i` of an iteration: the bit above it, and the dropped bit where the constant has a one
(41_crc.md R58). -/
theorem getLsbD_crcStep (v : Half) (i : Nat) :
    (crcStep v).getLsbD i = (v.getLsbD (1 + i) ^^ (v.getLsbD 0 && Config.poly.getLsbD i)) := by
  rw [crcStep_eq, BitVec.getLsbD_xor, BitVec.getLsbD_ushiftRight]
  cases v.getLsbD 0 <;> simp

/-- The constant has no one in bits 12 to 1. -/
theorem getLsbD_poly_middle {i : Nat} (hi : i < 12) : Config.poly.getLsbD (1 + i) = false := by
  decide +revert

/-- Settles O10: each bit by `getLsbD_crcStep`; the middle ones are not met by the constant. -/
theorem crcStepBitByBit : Obligations.CrcStepBitByBit := by
  intro v
  refine ⟨?_, ?_, ?_, ?_, ?_⟩
  · rw [getLsbD_crcStep]; simp [Config.poly]
  · rw [getLsbD_crcStep]; simp [Config.poly]
  · rw [getLsbD_crcStep]; simp [Config.poly]
  · apply BitVec.eq_of_getLsbD_eq
    intro i hi
    simp [getLsbD_crcStep, getLsbD_poly_middle hi, hi, show 1 + (1 + i) = 2 + i by omega]
  · rw [getLsbD_crcStep]; simp [Config.poly]

end Sys2Proof.Machine
end

section
/-! Absorbing a byte as a map of the running value (41_crc.md R65): onto and one-to-one, linear over
XOR, and given by a table of 256 values. -/

namespace Sys2Proof.Machine

/-! ### Bijections (R65(a)) -/

theorem finite_bitVec (n : Nat) : Finite (BitVec n) :=
  Finite.of_equiv _ BitVec.equivFin.symm.toEquiv

/-- The iterations are onto (`crcIterate_surjective`), and there are finitely many values. -/
theorem crcIterate_bijective (n : Nat) : Function.Bijective (crcIterate n) :=
  have := finite_bitVec 16
  Finite.surjective_iff_bijective.mp (crcIterate_surjective n)

theorem xor_bijective (w : Half) : Function.Bijective (· ^^^ w) :=
  Function.Involutive.bijective fun v => by simp

/-- Settles O11: a byte is absorbed by an XOR and eight iterations, each a bijection. -/
theorem absorbingAByteIsABijection : Obligations.AbsorbingAByteIsABijection :=
  ⟨crcIterate_bijective 1, fun b =>
    (crcIterate_bijective Config.iter).comp (xor_bijective (b.zeroExtend 16))⟩

/-! ### Linearity (R65(b)) -/

theorem crcStep_xor (v w : Half) : crcStep (v ^^^ w) = crcStep v ^^^ crcStep w := by
  apply BitVec.eq_of_getLsbD_eq
  intro i _
  simp only [getLsbD_crcStep, BitVec.getLsbD_xor, Bool.and_xor_distrib_right, Bool.xor_assoc,
    Bool.xor_left_comm]

theorem crcIterate_xor (n : Nat) (v w : Half) :
    crcIterate n (v ^^^ w) = crcIterate n v ^^^ crcIterate n w := by
  induction n generalizing v w with
  | zero => rfl
  | succ n ih => rw [crcIterate, crcStep_xor, ih]; rfl

/-- Absorbing a zero byte is the eight iterations alone. -/
theorem crcByte_zero (v : Half) : crcByte v 0 = crcIterate Config.iter v := by
  simp [crcByte]

/-- Settles O12: the iterations are linear, and the XOR with the byte comes before them. -/
theorem absorbingAByteIsLinear : Obligations.AbsorbingAByteIsLinear :=
  ⟨fun v w => by simp only [crcByte_zero, crcIterate_xor], fun _ _ => (crcByte_zero _).symm⟩

/-! ### The table form (R65(c)) -/

/-- From zero, the table's entry: the iterations of the byte alone. -/
theorem crcByte_from_zero (b : Byte) : crcByte 0 b = crcIterate Config.iter (b.zeroExtend 16) :=
  congrArg (crcIterate Config.iter) BitVec.zero_xor

/-- Settles O13: the byte meets the low byte of the value, and the high byte only moves down
(`crcIterate_iter_xor_highByte`). -/
theorem tableFormIsTheBitSerialForm : Obligations.TableFormIsTheBitSerialForm := by
  intro v b
  have hsplit : v ^^^ b.zeroExtend 16 =
      (v.extractLsb' 0 8 ^^^ b).zeroExtend 16 ^^^ (v.extractLsb' 8 8).zeroExtend 16 <<< 8 := by
    rw [← extractLsb'_low_xor_byte, ← extractLsb'_high_xor_byte v b, xor_bytes]
  calc crcByte v b
      = crcIterate Config.iter ((v.extractLsb' 0 8 ^^^ b).zeroExtend 16) ^^^
          (v.extractLsb' 8 8).zeroExtend 16 := by
        rw [crcByte, hsplit, crcIterate_iter_xor_highByte]
    _ = (v.extractLsb' 8 8).zeroExtend 16 ^^^ crcByte 0 (v.extractLsb' 0 8 ^^^ b) := by
        rw [crcByte_from_zero, BitVec.xor_comm]

end Sys2Proof.Machine
end

section
/-! The values that a zero byte leaves unchanged (41_crc.md R60). An iteration fixes 0x0000 and
0xC001 only. If `2 * n` iterations fix `v`, then by linearity `n` iterations fix
`crcIterate n v ^^^ v`. Where `n` iterations fix no more than one does, that is 0x0000 or 0xC001;
and it is not 0xC001, which is not the XOR of a value and an iterate of it. So `n` iterations fix `v`:
two, four and eight iterations fix no more values than one. -/

namespace Sys2Proof.Machine

theorem eq_zero_of_shiftRight_one_eq_self {v : Half} (h : v >>> 1 = v) : v = 0#16 := by
  have hhalf : v.toNat / 2 = v.toNat := by
    simpa [Nat.shiftRight_eq_div_pow] using congrArg BitVec.toNat h
  exact BitVec.eq_of_toNat_eq (show v.toNat = 0 by omega)

theorem crcStep_of_even {v : Half} (h : v.getLsbD 0 = false) : crcStep v = v >>> 1 := by
  rw [crcStep, h]
  rfl

/-- The nonzero value that an iteration fixes. -/
theorem crcStep_C001 : crcStep 0xC001#16 = 0xC001#16 := by decide

/-- The XOR with 0xC001 makes an odd value even. -/
theorem xor_C001_even {v : Half} (h : v.getLsbD 0 = true) :
    (v ^^^ 0xC001#16).getLsbD 0 = false := by
  rw [BitVec.getLsbD_xor, h]
  rfl

/-- The XOR with 0xC001 keeps the XOR of a value and its iteration. -/
theorem crcStep_xor_self_xor_C001 (v : Half) :
    crcStep (v ^^^ 0xC001#16) ^^^ (v ^^^ 0xC001#16) = crcStep v ^^^ v := by
  rw [crcStep_xor, crcStep_C001, BitVec.xor_comm v, BitVec.xor_assoc, ← BitVec.xor_assoc 0xC001#16,
    BitVec.xor_self, BitVec.zero_xor]

/-- An iteration fixes exactly 0x0000 and 0xC001: an even fixed value is its own half. -/
theorem crcStep_eq_self_iff (v : Half) : crcStep v = v ↔ v = 0x0000#16 ∨ v = 0xC001#16 := by
  have heven : ∀ w : Half, w.getLsbD 0 = false → crcStep w = w → w = 0#16 := fun w hlow h =>
    eq_zero_of_shiftRight_one_eq_self (crcStep_of_even hlow ▸ h)
  constructor
  · intro h
    cases hlow : v.getLsbD 0 with
    | false => exact .inl (heven v hlow h)
    | true =>
      have hfixed : crcStep (v ^^^ 0xC001#16) = v ^^^ 0xC001#16 := by
        rw [crcStep_xor, h, crcStep_C001]
      exact .inr (BitVec.xor_eq_zero_iff.mp (heven _ (xor_C001_even hlow) hfixed))
  · rintro (rfl | rfl)
    · decide
    · exact crcStep_C001

/-- 0xC001 is not the XOR of a value and its iteration: for an even value that is its Gray code,
and the value with Gray code 0xC001 is 0x8001, which is odd. -/
theorem crcStep_xor_self_ne_C001 (v : Half) : crcStep v ^^^ v ≠ 0xC001#16 := by
  have heven : ∀ w : Half, w.getLsbD 0 = false → crcStep w ^^^ w ≠ 0xC001#16 := by
    intro w hlow h
    rw [crcStep_of_even hlow] at h
    have hhalf : (w ^^^ 0x8001#16) >>> 1 = w ^^^ 0x8001#16 := by
      rw [← BitVec.xor_eq_zero_iff]
      calc (w ^^^ 0x8001#16) >>> 1 ^^^ (w ^^^ 0x8001#16)
          = (w >>> 1 ^^^ w) ^^^ (0x8001#16 >>> 1 ^^^ 0x8001#16) := by
            rw [BitVec.ushiftRight_xor_distrib]; ac_rfl
        _ = 0#16 := by rw [h]; rfl
    have hw : w = 0x8001#16 :=
      BitVec.xor_eq_zero_iff.mp (eq_zero_of_shiftRight_one_eq_self hhalf)
    simp [hw] at hlow
  cases hlow : v.getLsbD 0 with
  | false => exact heven v hlow
  | true => exact crcStep_xor_self_xor_C001 v ▸ heven _ (xor_C001_even hlow)

/-- The XOR of a value and its `n`-th iterate is also that of some value and its first. -/
theorem exists_crcStep_xor_self (n : Nat) (v : Half) :
    ∃ u, crcIterate n v ^^^ v = crcStep u ^^^ u := by
  induction n generalizing v with
  | zero => exact ⟨0#16, BitVec.xor_self⟩
  | succ n ih =>
    obtain ⟨u, hu⟩ := ih (crcStep v)
    refine ⟨u ^^^ v, ?_⟩
    calc crcIterate n (crcStep v) ^^^ v
        = (crcIterate n (crcStep v) ^^^ crcStep v) ^^^ (crcStep v ^^^ v) := by
          rw [BitVec.xor_assoc, ← BitVec.xor_assoc (crcStep v), BitVec.xor_self, BitVec.zero_xor]
      _ = crcStep (u ^^^ v) ^^^ (u ^^^ v) := by rw [hu, crcStep_xor]; ac_rfl

theorem crcIterate_add (m n : Nat) (v : Half) :
    crcIterate (m + n) v = crcIterate n (crcIterate m v) := by
  induction m generalizing v with
  | zero => rw [Nat.zero_add]; rfl
  | succ m ih => rw [Nat.succ_add]; exact ih (crcStep v)

/-- A value that `2 ^ k` iterations fix is fixed by one. -/
theorem crcStep_eq_self_of_crcIterate_two_pow (k : Nat) {v : Half}
    (h : crcIterate (2 ^ k) v = v) : crcStep v = v := by
  induction k generalizing v with
  | zero => exact h
  | succ k ih =>
    have htwice : crcIterate (2 ^ k) (crcIterate (2 ^ k) v) = v := by
      rw [← crcIterate_add, ← Nat.two_mul, ← Nat.pow_succ']
      exact h
    have hfixed : crcStep (crcIterate (2 ^ k) v ^^^ v) = crcIterate (2 ^ k) v ^^^ v :=
      ih (by rw [crcIterate_xor, htwice, BitVec.xor_comm])
    rcases (crcStep_eq_self_iff _).mp hfixed with hzero | hC001
    · exact ih (BitVec.xor_eq_zero_iff.mp hzero)
    · obtain ⟨u, hu⟩ := exists_crcStep_xor_self (2 ^ k) v
      exact absurd (hu.symm.trans hC001) (crcStep_xor_self_ne_C001 u)

/-- Settles O14: the eight iterations of a zero byte fix what one iteration fixes, and a byte equal
to the low byte is `crcByte_lowByte`. -/
theorem zeroByteFixesExactlyTwoValues : Obligations.ZeroByteFixesExactlyTwoValues := by
  refine ⟨fun v => ?_, crcByte_lowByte⟩
  rw [crcByte_zero, ← crcStep_eq_self_iff]
  constructor
  · exact crcStep_eq_self_of_crcIterate_two_pow 3
  · intro h
    simp [Config.iter, crcIterate, h]

end Sys2Proof.Machine
end

section
/-! The register after a run of commands (41_crc.md R63): it depends on the writes of `CRC` among
them alone. -/

namespace Sys2Proof.Safety

open Sys2Proof.Machine

/-- The value a write leaves in `CRC`. -/
def crcAfterWrite (v : Half) : CrcWrite → Half
  | .seed => Config.seed
  | .absorb b => crcByte v b

/-- The writes of bytes, one after the other, absorb them. -/
theorem foldl_crcAfterWrite_absorb (v : Half) (bytes : List Byte) :
    (bytes.map .absorb).foldl crcAfterWrite v = crcBytes v bytes :=
  List.foldl_map

theorem crcWrites_command_cons (w : CommandWord) (ms : List HostMove) :
    crcWrites (.command w :: ms) = (crcWriteOf w).toList ++ crcWrites ms := by
  cases h : crcWriteOf w <;> simp [crcWrites, commandOf, h]

/-- The write of a legal word is what its command does to `CRC`. -/
theorem foldl_crcWriteOf_of_ok {w : CommandWord} {i : Instr} (h : decode w = .ok i) (v : Half) :
    (crcWriteOf w).toList.foldl crcAfterWrite v = crcAfter v i := by
  cases i <;> simp [crcWriteOf, h, crcAfterWrite, crcAfter]

/-- An illegal word writes nothing (60_exceptions.md R66). -/
theorem crcWriteOf_of_error {w : CommandWord} {e : IllegalWord} (h : decode w = .error e) :
    crcWriteOf w = none := by
  simp [crcWriteOf, h]

/-- One command performs its write of `CRC`, if it has one. -/
theorem step_command_crc {s : State} {w : CommandWord} {rest : List HostMove}
    (h : s.pending = .command w :: rest) :
    ∃ t, step s = .next t ∧ t.pending = rest ∧
      t.crc = (crcWriteOf w).toList.foldl crcAfterWrite s.crc := by
  cases hdecode : decode w with
  | ok i =>
    exact ⟨_, (step_command h).trans (acceptWord_eq_of_ok hdecode _), rfl,
      (foldl_crcWriteOf_of_ok hdecode s.crc).symm⟩
  | error e =>
    exact ⟨_, (step_command h).trans (acceptWord_of_error hdecode _), rfl,
      by simp [crcWriteOf_of_error hdecode]⟩

/-- A run of commands performs their writes of `CRC` in order, by induction on the commands
(`step_command_crc`). -/
theorem run_commands_crc {ms : List HostMove} (hms : CommandsOnly ms) {s : State}
    (h : s.pending = ms) :
    ∃ t, Sys2Proof.core.run ms.length s = .next t ∧
      t.crc = (crcWrites ms).foldl crcAfterWrite s.crc := by
  induction ms generalizing s with
  | nil => exact ⟨s, run_zero s, rfl⟩
  | cons m ms ih =>
    obtain ⟨hm, hrest⟩ := List.forall_mem_cons.mp hms
    cases m with
    | reset lost => cases hm
    | command w =>
      obtain ⟨s', hstep, hpending, hcrc⟩ := step_command_crc h
      obtain ⟨t, hrun, ht⟩ := ih hrest hpending
      refine ⟨t, (run_succ_of_next ms.length hstep).trans hrun, ?_⟩
      rw [ht, hcrc, crcWrites_command_cons, List.foldl_append]

/-- Settles O45: the writes are the seed and then the bytes, from the seed (`run_commands_crc`). -/
theorem interleavedCommandsLeaveTheChecksum : Obligations.InterleavedCommandsLeaveTheChecksum := by
  intro ms bytes s hms hwrites
  obtain ⟨t, hrun, hcrc⟩ := run_commands_crc hms (s := { s with pending := ms }) rfl
  refine ⟨t, hrun, ?_⟩
  rw [hcrc, hwrites]
  exact foldl_crcAfterWrite_absorb Config.seed bytes

/-- Settles O46: a run of `CRC.UPD` commands from any value (`run_updMoves`), and the fold over a
concatenation (`crcBytes_append`). -/
theorem checksumMayBeComputedInPieces : Obligations.ChecksumMayBeComputedInPieces := by
  refine ⟨fun bytes s => ?_, crcBytes_append Config.seed⟩
  have hrun := run_updMoves bytes [] s
  rw [List.append_nil] at hrun
  exact ⟨_, hrun, rfl⟩

end Sys2Proof.Safety
end

section
/-! The two verifications of a received frame (41_crc.md R62). -/

namespace Sys2Proof.Machine

/-- From every value, exactly one pair of bytes leads to each value: two bytes reach every value
(`exists_two_bytes_reach`), and there are as many pairs as values. -/
theorem crcBytes_pair_bijective (v : Half) :
    Function.Bijective fun p : Byte × Byte => crcBytes v [p.1, p.2] := by
  have := finite_bitVec 8
  rw [Nat.bijective_iff_surjective_and_card]
  constructor
  · intro u
    obtain ⟨b0, b1, hreach⟩ := exists_two_bytes_reach v u
    exact ⟨(b0, b1), hreach⟩
  · rw [Nat.card_prod, natCard_bitVec, natCard_bitVec, ← Nat.pow_add]

/-- The one pair that leads to zero is the value itself, low byte first. -/
theorem crcBytes_pair_eq_zero_iff (v : Half) (b0 b1 : Byte) :
    crcBytes v [b0, b1] = 0 ↔ [b0, b1] = encodeU16Le v := by
  constructor
  · intro h
    have hpair : (b0, b1) = (v.extractLsb' 0 8, v.extractLsb' 8 8) :=
      (crcBytes_pair_bijective v).injective (h.trans (crcBytes_encodeU16Le v).symm)
    obtain ⟨rfl, rfl⟩ := Prod.mk.inj hpair
    rfl
  · intro h
    rw [h, crcBytes_encodeU16Le]

theorem numberResponse_eq_zero_iff (n : Half) : numberResponse n = 0 ↔ n = 0 := by
  constructor
  · intro h
    rw [← extractLsb'_low_numberResponse n, h]
    rfl
  · rintro rfl
    rfl

/-- The residue check accepts exactly the trailer that is the checksum low byte first. -/
theorem acceptsByResidue_iff (m : List Byte) (r0 r1 : Byte) :
    acceptsByResidue m r0 r1 = true ↔ [r0, r1] = encodeU16Le (compute m) := by
  rw [acceptsByResidue, beq_iff_eq, numberResponse_eq_zero_iff, ← crcBytes_pair_eq_zero_iff]
  exact iff_of_eq (congrArg (· = 0) (crcBytes_append Config.seed m [r0, r1]))

/-- The comparison accepts the same: lanes 0 and 1 of the response are that trailer. -/
theorem acceptsByCompare_iff (m : List Byte) (r0 r1 : Byte) :
    acceptsByCompare m r0 r1 = true ↔ [r0, r1] = encodeU16Le (compute m) := by
  have hlane0 : lane (numberResponse (compute m)) 0 = (compute m).extractLsb' 0 8 := by
    rw [← sequenceResponse_encodeU16Le]
    exact lane_lanesOf _ (by decide)
  have hlane1 : lane (numberResponse (compute m)) 1 = (compute m).extractLsb' 8 8 := by
    rw [← sequenceResponse_encodeU16Le]
    exact lane_lanesOf _ (by decide)
  rw [eq_comm (a := [r0, r1])]
  simp [acceptsByCompare, hlane0, hlane1, encodeU16Le]

/-- Settles O48: both accept exactly the trailer of the frame (`acceptsByCompare_iff`,
`acceptsByResidue_iff`). -/
theorem theTwoVerificationsAgree : Obligations.TheTwoVerificationsAgree := by
  intro m r0 r1
  constructor
  · rw [Bool.eq_iff_iff, acceptsByCompare_iff, acceptsByResidue_iff]
  · rw [acceptsByResidue_iff, frameOf, List.append_cancel_left_eq]

/-- Settles O49: the bytes exchanged are the trailer only if they are equal
(`acceptsByResidue_iff`). -/
theorem swappedTrailerIsRejected : Obligations.SwappedTrailerIsRejected := by
  intro m
  rw [acceptsByResidue_iff, encodeU16Le]
  exact ⟨fun h => (List.cons.inj h).1, fun h => by rw [h]⟩

end Sys2Proof.Machine
end

section
/-! One step with a command word next, legal or not, and with no move to come (60_exceptions.md
R66, R68, R78). -/

namespace Sys2Proof.Machine

/-- Settles O31: a step without a move is idling. -/
theorem idleBlockHoldsItsState : Obligations.IdleBlockHoldsItsState := fun _ => step_nil

/-- Settles O28: the step accepts the word, which raises `IllegalCommand` when it does not decode
and completes with outcome ok when it does. -/
theorem illegalCommandSetsErrAndNothingElse :
    Obligations.IllegalCommandSetsErrAndNothingElse := by
  intro s w rest hnext
  constructor
  · intro hillegal
    obtain ⟨e, hdecode⟩ := (not_legal_iff w).mp hillegal
    exact (step_command hnext).trans (acceptWord_of_error hdecode _)
  · intro hlegal
    obtain ⟨i, hdecode⟩ := (legal_iff w).mp hlegal
    exact ⟨_, _, (step_command hnext).trans (acceptWord_eq_of_ok hdecode _), rfl, rfl⟩

/-- Settles O32: a legal word is its command, whose write of `CRC` and response do not read `ERR`
(`exec_eq`). -/
theorem legalCommandsNeverFault : Obligations.LegalCommandsNeverFault := by
  intro w s hlegal
  obtain ⟨i, hdecode⟩ := (legal_iff w).mp hlegal
  exact ⟨_, _, acceptWord_eq_of_ok hdecode s, rfl, rfl,
    fun _ => acceptWord_eq_of_ok hdecode _⟩

end Sys2Proof.Machine
end

section
/-! Runs seen through a part of the state (60_exceptions.md R66). Where each move acts on that part
alone, a run over moves is the fold of these actions, and two runs are compared as two folds. -/

namespace Sys2Proof.Safety

open Sys2Proof.Machine

/-- A step that makes move `m` acts on what `view` shows as `act · m` does. -/
def StepActsBy {α : Type} (view : State → α) (act : α → HostMove → α) : Prop :=
  ∀ (s : State) (m : HostMove) (rest : List HostMove), s.pending = m :: rest →
    ∃ t, step s = .next t ∧ t.pending = rest ∧ view t = act (view s) m

/-- A run over the moves to come folds what each of them does, by induction on the moves. -/
theorem StepActsBy.run {α : Type} {view : State → α} {act : α → HostMove → α}
    (hact : StepActsBy view act) {ms : List HostMove} {s : State} (h : s.pending = ms) :
    ∃ t, Sys2Proof.core.run ms.length s = .next t ∧ view t = ms.foldl act (view s) := by
  induction ms generalizing s with
  | nil => exact ⟨s, run_zero s, rfl⟩
  | cons m ms ih =>
    obtain ⟨s', hstep, hpending, hview⟩ := hact s m ms h
    obtain ⟨t, hrun, ht⟩ := ih hpending
    refine ⟨t, (run_succ_of_next ms.length hstep).trans hrun, ?_⟩
    rw [ht, hview, List.foldl_cons]

/-! `CRC` and the completions of legal commands. -/

/-- A legal command completes after the legal commands before it. -/
theorem okCompletions_complete_ok (s : State) (r : Response) :
    okCompletions (s.complete r .ok) = okCompletions s ++ [⟨r, .ok⟩] := by
  simp [okCompletions]

/-- The completion of an illegal word is not among those of the legal commands. -/
theorem okCompletions_raiseIllegalCommand (s : State) :
    okCompletions s.raiseIllegalCommand = okCompletions s := by
  simp [okCompletions]

/-- `CRC` and the completions of the commands that spelled an operation. -/
def legalView (s : State) : Half × List Completion := (s.crc, okCompletions s)

/-- What a move does to them: a reset seeds `CRC`, a legal word writes `CRC` and completes, an
illegal word does nothing. -/
def legalViewAfter (v : Half × List Completion) : HostMove → Half × List Completion
  | .reset _ => (Config.seed, v.2)
  | .command w =>
    match decode w with
    | .ok i => (crcAfter v.1 i, v.2 ++ [⟨responseOf v.1 i, .ok⟩])
    | .error _ => v

theorem legalViewAfter_of_ok {w : CommandWord} {i : Instr} (h : decode w = .ok i)
    (v : Half × List Completion) :
    legalViewAfter v (.command w) = (crcAfter v.1 i, v.2 ++ [⟨responseOf v.1 i, .ok⟩]) := by
  simp only [legalViewAfter, h]

theorem legalViewAfter_of_error {w : CommandWord} {e : IllegalWord} (h : decode w = .error e)
    (v : Half × List Completion) : legalViewAfter v (.command w) = v := by
  simp only [legalViewAfter, h]

theorem stepActsBy_legalViewAfter : StepActsBy legalView legalViewAfter := by
  intro s m rest h
  cases m with
  | reset lost => exact ⟨_, step_reset h, rfl, rfl⟩
  | command w =>
    cases hdecode : decode w with
    | ok i =>
      refine ⟨_, (step_command h).trans (acceptWord_eq_of_ok hdecode _), rfl, ?_⟩
      rw [legalViewAfter_of_ok hdecode]
      exact Prod.ext rfl (okCompletions_complete_ok _ _)
    | error e =>
      refine ⟨_, (step_command h).trans (acceptWord_of_error hdecode _), rfl, ?_⟩
      rw [legalViewAfter_of_error hdecode]
      exact Prod.ext rfl (okCompletions_raiseIllegalCommand _)

/-- The moves that `legalMoves` leaves out do nothing to the view. -/
theorem legalViewAfter_of_not_legal {m : HostMove} (h : (commandOf m).all legal = false)
    (v : Half × List Completion) : legalViewAfter v m = v := by
  cases m with
  | reset lost => cases h
  | command w =>
    obtain ⟨e, hdecode⟩ := (not_legal_iff w).mp h
    exact legalViewAfter_of_error hdecode v

theorem foldl_legalViewAfter_legalMoves (ms : List HostMove) (v : Half × List Completion) :
    (legalMoves ms).foldl legalViewAfter v = ms.foldl legalViewAfter v := by
  rw [legalMoves, List.foldl_filter]
  congr 1
  funext v m
  split
  · rfl
  · next h => exact (legalViewAfter_of_not_legal (Bool.eq_false_iff.mpr h) v).symm

/-- Settles O42: both runs fold `legalViewAfter` from the same view, and the illegal words add
nothing to the fold (`foldl_legalViewAfter_legalMoves`). -/
theorem illegalWordsAreAsIfAbsent : Obligations.IllegalWordsAreAsIfAbsent := by
  intro ms s
  obtain ⟨t, hrun, ht⟩ :=
    stepActsBy_legalViewAfter.run (s := { s with pending := ms }) rfl
  obtain ⟨u, hrun', hu⟩ :=
    stepActsBy_legalViewAfter.run (s := { s with pending := legalMoves ms }) rfl
  have hview : legalView t = legalView u := by
    rw [ht, hu, foldl_legalViewAfter_legalMoves]
    rfl
  obtain ⟨hcrc, hcompletions⟩ := Prod.mk.inj hview
  exact ⟨t, u, hrun, hrun', hcrc, hcompletions⟩

/-! `ERR`. -/

/-- What a move does to `ERR` (10_state.md R17). -/
def errAfterMove (e : Bool) : HostMove → Bool
  | .reset _ => false
  | .command w => e || !legal w

theorem stepActsBy_errAfterMove : StepActsBy State.err errAfterMove := by
  intro s m rest h
  cases m with
  | reset lost => exact ⟨_, step_reset h, rfl, rfl⟩
  | command w =>
    cases hdecode : decode w with
    | ok i =>
      exact ⟨_, (step_command h).trans (acceptWord_eq_of_ok hdecode _), rfl,
        by simp [errAfterMove, legal_of_ok hdecode]⟩
    | error e =>
      exact ⟨_, (step_command h).trans (acceptWord_of_error hdecode _), rfl,
        by simp [errAfterMove, not_legal_of_error hdecode]⟩

/-- Commands leave `ERR` clear exactly when it was clear and each of them is legal, by induction on
the commands. -/
theorem foldl_errAfterMove_eq_false_iff {ms : List HostMove} (hms : CommandsOnly ms) (e : Bool) :
    ms.foldl errAfterMove e = false ↔ e = false ∧ ∀ w, .command w ∈ ms → legal w = true := by
  induction ms generalizing e with
  | nil => simp
  | cons m ms ih =>
    obtain ⟨hm, hrest⟩ := List.forall_mem_cons.mp hms
    cases m with
    | reset lost => cases hm
    | command w =>
      rw [List.foldl_cons, ih hrest]
      simp [errAfterMove, and_assoc]

/-- The port shows 0 exactly when the flag is clear (30_encoding.md R37). -/
theorem goodRun_iff (s : State) : GoodRun s ↔ s.err = false := by
  cases h : s.err <;> simp [GoodRun, errPin, h]

/-- Settles O43: the run folds `errAfterMove` from a clear flag
(`foldl_errAfterMove_eq_false_iff`). -/
theorem clearErrMeansEveryWordWasLegal : Obligations.ClearErrMeansEveryWordWasLegal := by
  intro ms s hms hclear
  obtain ⟨t, hrun, herr⟩ := stepActsBy_errAfterMove.run (s := { s with pending := ms }) rfl
  refine ⟨t, hrun, ?_⟩
  calc GoodRun t
    _ ↔ t.err = false := goodRun_iff t
    _ ↔ ms.foldl errAfterMove s.err = false := by rw [herr]
    _ ↔ s.err = false ∧ ∀ w, .command w ∈ ms → legal w = true :=
      foldl_errAfterMove_eq_false_iff hms s.err
    _ ↔ ∀ w, .command w ∈ ms → legal w = true := and_iff_right hclear

end Sys2Proof.Safety
end

section
/-! A reset that loses a word (70_reset_and_hazards.md R79, R80). -/

namespace Sys2Proof.Machine

/-- Settles O30: a reset step does not read the word it loses, which only the host's record of its
moves holds (`step_reset`); taking the move and applying the reset write the fields listed. -/
theorem resetAbandonsTheCommandInFlight : Obligations.ResetAbandonsTheCommandInFlight := by
  intro s w rest
  let presented : State := { s with pending := .reset (some w) :: rest }
  calc step presented
    _ = .next (presented.take (.reset (some w)) rest).applyReset := step_reset rfl
    _ = .next { s with
          crc := 0xFFFF#16
          err := false
          pending := rest
          history := s.history ++ [.reset (some w)] } := rfl

end Sys2Proof.Machine
end

section
/-! The decoder on the words that the spec writes out (95_test_vectors.md V11, V13, V16). -/

namespace Sys2Proof

open Sys2Proof.Machine

/-- A reserved operation code makes a word illegal, whatever the data (30_encoding.md R41). -/
theorem not_legal_of_opField_reserved {w : CommandWord}
    (h : opField w ∈ ([0x0, 0x6, 0x7, 0xB, 0xC, 0xD, 0xE, 0xF] : List OpCode)) :
    legal w = false := by
  cases hdecode : decode w with
  | ok i =>
    obtain ⟨m, hop⟩ := opCode_of_decodeFields_ok hdecode
    exact absurd (hop ▸ h) m.opCode_not_reserved
  | error e => exact Safety.not_legal_of_error hdecode

/-- A set reserved data bit makes a word illegal (30_encoding.md R42). -/
theorem not_legal_of_payload_too_wide (m : Mnemonic) {d : Data}
    (h : 2 ^ m.format.payloadBits ≤ d.toNat) : legal (commandWord m.opCode d) = false :=
  Safety.not_legal_of_error (decode_opCode_of_payload_too_wide h)

/-- Settles O25: each legal word is the encoding of its command (`decode_encode`), and each illegal
one has a reserved operation code or a payload too wide for the format of its row. -/
theorem decodesTheSpecsExampleWords : Obligations.DecodesTheSpecsExampleWords :=
  ⟨decode_encode (.enc16be 0x1234),
    decode_encode (.dec16be 0xAB 0xCD),
    decode_encode (.enc32be 0xFFFFFFFF),
    decode_encode (.dec32be 0x12 0x34 0x56 0x78),
    decode_encode (.enc16le 0xC8C5),
    decode_encode .crcInit,
    decode_encode (.crcUpd 0xFF),
    decode_encode .crcRd,
    not_legal_of_opField_reserved (w := 0x000000000#36) (by decide),
    not_legal_of_payload_too_wide .enc16be (d := 0x10001234#32) (by decide),
    not_legal_of_payload_too_wide .enc16le (d := 0xC8C50000#32) (by decide),
    not_legal_of_payload_too_wide .crcInit (d := 0x0000FFFF#32) (by decide),
    not_legal_of_payload_too_wide .crcUpd (d := 0x00000103#32) (by decide),
    not_legal_of_opField_reserved (w := 0xFFFFFFFFF#36) (by decide)⟩

end Sys2Proof
end
